-- ==== Sys2Proof/Word.lean ====
section
/-! DEFINITION. The machine's word and address types (spec/00_scope.md R5, R7, R8): 16-bit words, 12-bit word addresses,
a memory of 4096 words. Every value is an unsigned integer in the range of its width. -/

namespace Sys2Proof

/-- A memory cell, or the value of AC, IR or MBR: 16 bits, 0..65535 (R5, R8). -/
abbrev Word := BitVec 16

/-- The value of MAR or PC, and the operand field: 12 bits, 0..4095 (R5, R8). -/
abbrev Addr := BitVec 12

/-- The number of memory words (R5, R20). -/
abbrev memSize : Nat := 4096

/-- The largest value of a 16-bit register or cell (R8). -/
abbrev maxWord : Nat := 65535

end Sys2Proof
end

