-- ==== Sys2Proof/Syntax.lean ====
section
/-! DEFINITION. The instructions: one constructor per row of spec/opcode_table.json (spec/30_encoding.md R52, R54, R55).
Fields are the word's own bits, the ignored ones among them (R57), so that a word and its instruction determine each other. -/

namespace Sys2Proof

/-- One decoded instruction word. `x` is the 12-bit operand field `IR[11:0]`; where the spec ignores bits of it (R57),
the field that holds them is named `ignored`. -/
inductive Instr where
  /-- JNS X, opcode 0 (R90). -/
  | jns (x : Addr)
  /-- LOAD X, opcode 1 (R96). -/
  | load (x : Addr)
  /-- STORE X, opcode 2 (R97). -/
  | store (x : Addr)
  /-- ADD X, opcode 3 (R98). -/
  | add (x : Addr)
  /-- SUBT X, opcode 4 (R99). -/
  | subt (x : Addr)
  /-- INPUT, opcode 5 (R104). -/
  | input (ignored : BitVec 12)
  /-- OUTPUT, opcode 6 (R105). -/
  | output (ignored : BitVec 12)
  /-- HALT, opcode 7 (R106). -/
  | halt (ignored : BitVec 12)
  /-- SKIPCOND c, opcode 8, `c = IR[11:10]` (R91). -/
  | skipcond (c : BitVec 2) (ignored : BitVec 10)
  /-- JUMP X, opcode 9 (R92). -/
  | jump (x : Addr)
  /-- CLEAR, opcode 10 (R100). -/
  | clear (ignored : BitVec 12)
  /-- ADDI X, opcode 11: X is the address of a pointer word (R101). -/
  | addi (x : Addr)
  /-- JUMPI X, opcode 12: X is the address of a pointer word (R93). -/
  | jumpi (x : Addr)
  /-- LOADI X, opcode 13: X is the address of a pointer word (R102). -/
  | loadi (x : Addr)
  /-- STOREI X, opcode 14: X is the address of a pointer word (R103). -/
  | storei (x : Addr)
  /-- A word with opcode 15: no operation, the step raises `UnknownOpcodeError(15)` (R55). -/
  | illegal (ignored : BitVec 12)
  deriving DecidableEq, Repr

/-- The row of spec/opcode_table.json an instruction belongs to. -/
def Instr.mnemonic : Instr → String
  | .jns _ => "JNS"
  | .load _ => "LOAD"
  | .store _ => "STORE"
  | .add _ => "ADD"
  | .subt _ => "SUBT"
  | .input _ => "INPUT"
  | .output _ => "OUTPUT"
  | .halt _ => "HALT"
  | .skipcond _ _ => "SKIPCOND"
  | .jump _ => "JUMP"
  | .clear _ => "CLEAR"
  | .addi _ => "ADDI"
  | .jumpi _ => "JUMPI"
  | .loadi _ => "LOADI"
  | .storei _ => "STOREI"
  | .illegal _ => "illegal__opcode_15"

end Sys2Proof
end

