-- ==== Sys2Proof/WellFormed.lean ====
section
/-! DEFINITION. Well-formed instructions: the spellings the assembler emits (spec/30_encoding.md R55, R56, R57, R65, R66).
Every term of `Instr` is a word's decoding and has a meaning, because the fields carry their widths in their types; what
these checks add is that the word is an operation (opcode 0..14), that its ignored bits are zero and that a SKIPCOND
condition is one with a test (log 16). -/

namespace Sys2Proof

/-- The opcode is one of the 15 operations (R51, R55). -/
def Instr.isOperation : Instr → Bool
  | .illegal _ => false
  | .jns _ | .load _ | .store _ | .add _ | .subt _ | .input _ | .output _ | .halt _ | .skipcond _ _
  | .jump _ | .clear _ | .addi _ | .jumpi _ | .loadi _ | .storei _ => true

/-- The operand bits that execution ignores are zero, as the assembler writes them (R57, R66). -/
def Instr.ignoredBitsZero : Instr → Bool
  | .input g | .output g | .halt g | .clear g | .illegal g => g == 0
  | .skipcond _ g => g == 0
  | .jns _ | .load _ | .store _ | .add _ | .subt _ | .jump _ | .addi _ | .jumpi _ | .loadi _ | .storei _ => true

/-- A SKIPCOND condition is 0, 1 or 2: the ones R65 lets the assembler accept (R56). -/
def Instr.conditionDefined : Instr → Bool
  | .skipcond c _ => c != 3
  | .jns _ | .load _ | .store _ | .add _ | .subt _ | .input _ | .output _ | .halt _ | .jump _ | .clear _
  | .addi _ | .jumpi _ | .loadi _ | .storei _ | .illegal _ => true

/-- The word is one the assembler emits for an instruction line (R65, R66). -/
def Instr.wellFormed (i : Instr) : Bool :=
  i.isOperation && i.ignoredBitsZero && i.conditionDefined

/-- The same instruction with its ignored operand bits zero: "a word that differs from the assembler's spelling only in
these bits executes as that spelling" (R57). -/
def Instr.canonical : Instr → Instr
  | .jns x => .jns x
  | .load x => .load x
  | .store x => .store x
  | .add x => .add x
  | .subt x => .subt x
  | .input _ => .input 0
  | .output _ => .output 0
  | .halt _ => .halt 0
  | .skipcond c _ => .skipcond c 0
  | .jump x => .jump x
  | .clear _ => .clear 0
  | .addi x => .addi x
  | .jumpi x => .jumpi x
  | .loadi x => .loadi x
  | .storei x => .storei x
  | .illegal _ => .illegal 0

end Sys2Proof
end

