-- ==== Sys2Proof/Decode.lean ====
section
/-! DEFINITION. The instruction decoder, the encoder and the opcode table (spec/30_encoding.md R50, R51, R52, R54, R55).
The decoder is total on 16-bit words (R51): it rejects no word, and a word with opcode 15 decodes to the constructor that
names it. -/

namespace Sys2Proof

/-- `IR[15:12]` (R51). -/
def opcodeOf (w : Word) : BitVec 4 := w.extractLsb' 12 4

/-- `IR[11:0]` (R51). -/
def operandOf (w : Word) : Addr := w.extractLsb' 0 12

/-- `operand[11:10]`, the SKIPCOND condition (R52). -/
def conditionOf (x : Addr) : BitVec 2 := x.extractLsb' 10 2

/-- `operand[9:0]`, which SKIPCOND ignores (R52). -/
def belowCondition (x : Addr) : BitVec 10 := x.extractLsb' 0 10

/-- The operation an opcode selects, with its operand (R54, R77). The opcode is below 16, so the last arm is opcode 15
alone (R51, R55). -/
def instrOf (opcode : Nat) (x : Addr) : Instr :=
  match opcode with
  | 0 => .jns x
  | 1 => .load x
  | 2 => .store x
  | 3 => .add x
  | 4 => .subt x
  | 5 => .input x
  | 6 => .output x
  | 7 => .halt x
  | 8 => .skipcond (conditionOf x) (belowCondition x)
  | 9 => .jump x
  | 10 => .clear x
  | 11 => .addi x
  | 12 => .jumpi x
  | 13 => .loadi x
  | 14 => .storei x
  | _ => .illegal x

/-- The decoder: every word yields an opcode and an operand (R51, R75). -/
def decode (w : Word) : Instr := instrOf (opcodeOf w).toNat (operandOf w)

/-- The decoder on an instruction's bits as spec/opcode_table.json numbers them. Every instruction is one 16-bit word
(R50, R59): bits above `nbits` are 0, and more than 16 bits are no one instruction. -/
def decodeTableWord (nbits w : Nat) : Option Instr :=
  if nbits ≤ 16 then some (decode (BitVec.ofNat 16 (w % 2 ^ nbits))) else none

/-- The opcode an instruction is encoded with (R54). -/
def opcodeFor : Instr → BitVec 4
  | .jns _ => 0
  | .load _ => 1
  | .store _ => 2
  | .add _ => 3
  | .subt _ => 4
  | .input _ => 5
  | .output _ => 6
  | .halt _ => 7
  | .skipcond _ _ => 8
  | .jump _ => 9
  | .clear _ => 10
  | .addi _ => 11
  | .jumpi _ => 12
  | .loadi _ => 13
  | .storei _ => 14
  | .illegal _ => 15

/-- The operand field an instruction is encoded with (R52). -/
def operandFor : Instr → Addr
  | .jns x | .load x | .store x | .add x | .subt x | .jump x | .addi x | .jumpi x | .loadi x | .storei x => x
  | .input g | .output g | .halt g | .clear g | .illegal g => g
  | .skipcond c g => c ++ g

/-- The word of an instruction: opcode in bits 15..12, operand in bits 11..0 (R50). -/
def encode (i : Instr) : Word := opcodeFor i ++ operandFor i

/-- One row of spec/opcode_table.json: a word belongs to the row when `word AND mask = pattern`. -/
structure OpcodeRow where
  mnemonic : String
  pattern : Word
  mask : Word
  deriving DecidableEq, Repr

/-- spec/opcode_table.json, row by row, with the match and mask values the table gives (R54). -/
def opcodeTable : List OpcodeRow :=
  [⟨"JNS", 0x0000, 0xF000⟩, ⟨"LOAD", 0x1000, 0xF000⟩, ⟨"STORE", 0x2000, 0xF000⟩, ⟨"ADD", 0x3000, 0xF000⟩,
   ⟨"SUBT", 0x4000, 0xF000⟩, ⟨"INPUT", 0x5000, 0xF000⟩, ⟨"OUTPUT", 0x6000, 0xF000⟩, ⟨"HALT", 0x7000, 0xF000⟩] ++
  [⟨"SKIPCOND", 0x8000, 0xF000⟩, ⟨"JUMP", 0x9000, 0xF000⟩, ⟨"CLEAR", 0xA000, 0xF000⟩, ⟨"ADDI", 0xB000, 0xF000⟩,
   ⟨"JUMPI", 0xC000, 0xF000⟩, ⟨"LOADI", 0xD000, 0xF000⟩, ⟨"STOREI", 0xE000, 0xF000⟩,
   ⟨"illegal__opcode_15", 0xF000, 0xF000⟩]

end Sys2Proof
end

