-- ==== Sys2Proof/Config.lean ====
section
/-! DEFINITION. The open parameters of spec/00_scope.md R6. The spec says the model takes them as arguments, so they are
fields of one structure that the load command and the assembler take; no step of the engine reads either. No result of an
instruction is left open, so there is no free value (log 7). -/

namespace Sys2Proof

/-- `INPUT_QUEUE_ON_LOAD` (R6, D10): whether the load command empties the input queue. -/
inductive InputQueueOnLoad where
  | keep
  | clear
  deriving DecidableEq, Repr

/-- `ADDR_LITERAL_RADIX` (R6, D21): the radix of a numeric literal that is the operand of an address-taking mnemonic. -/
inductive AddrLiteralRadix where
  | ten
  | sixteen
  deriving DecidableEq, Repr

/-- The parameters no source settles. A claim that quantifies over `Config` is exact (D10, D21). -/
structure Config where
  inputQueueOnLoad : InputQueueOnLoad
  addrLiteralRadix : AddrLiteralRadix
  deriving DecidableEq, Repr

end Sys2Proof
end

