-- ==== Sys2Proof/Machine/State.lean ====
section
/-! DEFINITION. The engine's state (spec/10_state.md): registers, memory, run state, halt cause, error record, queues, the
recorded event stream; the ways a step can stop; and the state after construction (R31, R123). -/

namespace Sys2Proof.Machine

/-- The five registers (R12). -/
inductive Reg where
  | ac
  | ir
  | mbr
  | mar
  | pc
  deriving DecidableEq, Repr

/-- The target a `RangeError` names: a register, or `ADDR` for an address (R107). -/
inductive RangeTarget where
  | reg (r : Reg)
  | addr
  deriving DecidableEq, Repr

/-- A fatal-error record: the kind, with the detail that kind records (R107, R108). -/
inductive FatalError where
  /-- `RangeError`: a register write, or an address, outside its bit width. -/
  | rangeError (target : RangeTarget)
  /-- `ArithmeticOverflowError`: `AC + m > 65535` (ADD, ADDI). -/
  | arithmeticOverflow
  /-- `ArithmeticUnderflowError`: `AC - m < 0` (SUBT). -/
  | arithmeticUnderflow
  /-- `UnknownOpcodeError`, with the opcode, always 15. -/
  | unknownOpcode (opcode : BitVec 4)
  /-- `InvalidConditionError`, with the condition, always 3 (SKIPCOND). -/
  | invalidCondition (condition : BitVec 2)
  deriving DecidableEq, Repr

/-- The events the engine emits to the host (R27). -/
inductive Event where
  | output (v : Word)
  | inputRequested
  | programEnd
  | error (e : FatalError)
  deriving DecidableEq, Repr

/-- The run state, the spec's `exec` (R21). -/
inductive RunState where
  | idle
  | running
  | paused
  | halted
  deriving DecidableEq, Repr

/-- Why the engine is Halted, the spec's `haltCause` (R23). -/
inductive HaltCause where
  | none
  | haltInstr
  | stopped
  | fatal
  deriving DecidableEq, Repr

/-- The memory: (address, word) pairs with rising addresses below 4096, none of them holding `unlistedCell`. The spec's
smallest addressable unit is the 16-bit word and a model "never splits it into bytes" (R37; log 3). -/
abbrev Memory := List (Nat × Word)

/-- The engine's state tuple (R3, opening of spec/10_state.md), and the stream of events R27 lets a model record. -/
structure State where
  /-- Accumulator (R13). -/
  ac : Word
  /-- Instruction register (R16). -/
  ir : Word
  /-- Memory buffer register (R18). -/
  mbr : Word
  /-- Memory address register (R17). -/
  mar : Addr
  /-- Program counter (R14). -/
  pc : Addr
  /-- The memory `M` (R20). -/
  mem : Memory
  /-- The run state `exec` (R21). -/
  runState : RunState
  /-- The halt cause (R23). -/
  haltCause : HaltCause
  /-- The error record: empty, or the fatal error that halted the run (R24). -/
  err : Option FatalError
  /-- The input queue, head first (R25). -/
  inQ : List Word
  /-- The output log, oldest first (R26). -/
  outLog : List Word
  /-- The event stream so far, oldest first. The MODEL's own field: R27 calls the stream an output and lets a model
  record it as a list that each transition extends (log 9). -/
  events : List Event
  deriving DecidableEq, Repr

/-- The machine stops with no fault: every error the spec describes is a fatal error whose effect R109 gives in full, so
it is a NEXT state in Halted (log 8). The type is closed and empty. -/
inductive Fault where
  deriving DecidableEq, Repr

/-- Why a command is turned away. In each case the engine's state is unchanged. -/
inductive Refusal where
  /-- Raised by an arm of `exec` that has no meaning yet. No arm does (safe). -/
  | notModelled (mnemonic : String)
  /-- Raised by `step` outside Running: "the model refuses it and no state changes" (R73, D6; safe). -/
  | stepNotRunning
  /-- Raised by the load command for an image of more than 4096 words (R42, D2; safe). -/
  | imageTooLong
  /-- Raised by the load command for a word outside 0..65535 (R42, D2; safe). -/
  | imageWordOutOfRange
  /-- Raised by the set-input command for a value outside 0..65535 (R82, D7; safe if the engine refuses the batch too). -/
  | inputValueOutOfRange
  deriving DecidableEq, Repr

/-- The engine right after construction (R31, R123): Idle, with the zero and empty values of decision D11 (log 1). -/
def State.reset : State where
  ac := 0
  ir := 0
  mbr := 0
  mar := 0
  pc := 0
  mem := []
  runState := .idle
  haltCause := .none
  err := .none
  inQ := []
  outLog := []
  events := []

end Sys2Proof.Machine
end

