-- ==== Sys2Proof/Machine/Ops.lean ====
section
/-! DEFINITION. The operations every instruction shares: memory cells and the address decoder (spec/20_memory.md R33, R35),
the width-checked register write (spec/00_scope.md R10), taking a fatal error (spec/60_exceptions.md R109), and the fetch
(spec/40_engine.md R74). An operation that can raise takes the rest of the step as its last argument `k`: a raise ends the
step, so `k` is then not run (R9). There is no return from a fatal error beside it, because none exists (R114). -/

namespace Sys2Proof.Machine

/-- What one step, or the rest of one, answers. -/
abbrev Result := Host.Outcome State Fault Refusal

/-! ## Memory cells -/

/-- What an address that memory does not list reads as: a cell nothing has filled holds 0 (R33, R41, R123). -/
def unlistedCell : Word := 0

/-- The word in cell `a` (R20). -/
def Memory.read : Memory → Nat → Word
  | [], _ => unlistedCell
  | (b, v) :: m, a => if a = b then v else Memory.read m a

/-- Put a word that is to be listed in front of `m`, or nothing when the word is what an unlisted cell holds. -/
def Memory.listed (a : Nat) (v : Word) (m : Memory) : Memory :=
  if v = unlistedCell then m else (a, v) :: m

/-- Memory with `v` in cell `a`, in canonical form when `m` is. -/
def Memory.write : Memory → Nat → Word → Memory
  | [], a, v => Memory.listed a v []
  | (b, u) :: m, a, v =>
    if a < b then Memory.listed a v ((b, u) :: m)
    else if a = b then Memory.listed a v m
    else (b, u) :: Memory.write m a v

/-- The cells from address `lo` on are listed in rising order, below 4096, and none holds `unlistedCell`. -/
def Memory.wfFrom : Nat → Memory → Bool
  | _, [] => true
  | lo, (a, v) :: m => decide (lo ≤ a) && decide (a < memSize) && decide (v ≠ unlistedCell) && Memory.wfFrom (a + 1) m

/-- The canonical form: equal memories are equal lists. -/
def Memory.wf (m : Memory) : Bool := Memory.wfFrom 0 m

/-- The memory that holds `ws` from address `a` on and `unlistedCell` everywhere else (R42). -/
def Memory.image : Nat → List Word → Memory
  | _, [] => []
  | a, w :: ws => Memory.listed a w (Memory.image (a + 1) ws)

/-! ## Registers -/

/-- A register's width in bits (R10, R12). -/
def Reg.width : Reg → Nat
  | .ac | .ir | .mbr => 16
  | .mar | .pc => 12

/-- A register's value, as the unsigned integer it holds (R8). -/
def State.reg (s : State) : Reg → Nat
  | .ac => s.ac.toNat
  | .ir => s.ir.toNat
  | .mbr => s.mbr.toNat
  | .mar => s.mar.toNat
  | .pc => s.pc.toNat

/-- The state with a register holding an integer of its range. -/
def State.setReg (s : State) (r : Reg) (v : Int) : State :=
  match r with
  | .ac => { s with ac := BitVec.ofInt 16 v }
  | .ir => { s with ir := BitVec.ofInt 16 v }
  | .mbr => { s with mbr := BitVec.ofInt 16 v }
  | .mar => { s with mar := BitVec.ofInt 12 v }
  | .pc => { s with pc := BitVec.ofInt 12 v }

/-- The error codes of R107, which are the spec's own labels (D12). -/
def FatalError.code : FatalError → Nat
  | .rangeError _ => 1
  | .arithmeticOverflow => 2
  | .arithmeticUnderflow => 3
  | .unknownOpcode _ => 4
  | .invalidCondition _ => 5

/-! ## Events and fatal errors -/

/-- `emit Ev` (R9, R27). -/
def State.emit (s : State) (e : Event) : State := { s with events := s.events ++ [e] }

/-- The state a fatal error leaves: Halted, cause Fatal, the record kept, the error notified; nothing else is saved
anywhere, and the writes made earlier in the step stay (R109, R110). -/
def State.raised (s : State) (e : FatalError) : State :=
  { s with runState := .halted, haltCause := .fatal, err := some e }.emit (.error e)

/-- `raise E(d)`: the last action of a step. No handler runs; the engine stops in Halted (R109). -/
def raise (e : FatalError) (s : State) : Result := .next (s.raised e)

/-! ## Width-checked writes and the address decoder -/

/-- `R <- v` (R10): raise `RangeError(R)` when the integer does not fit the register, else write it and go on. -/
def writeReg (r : Reg) (v : Int) (s : State) (k : State → Result) : Result :=
  if v < 0 ∨ (2 : Int) ^ r.width - 1 < v then raise (.rangeError (.reg r)) s else k (s.setReg r v)

/-- `MemRead(a, 1)` through the address decoder (R11, R35). -/
def memRead (a : Nat) (s : State) (k : Word → Result) : Result :=
  if a < memSize then k (Memory.read s.mem a) else raise (.rangeError .addr) s

/-- `MemWrite(a, 1, v)` through the address decoder (R11, R35). -/
def memWrite (a : Nat) (v : Word) (s : State) (k : State → Result) : Result :=
  if a < memSize then k { s with mem := Memory.write s.mem a v } else raise (.rangeError .addr) s

/-! ## The fetch -/

/-- The fetch phase (R74): `MAR <- PC; MBR <- MemRead(MAR, 1); IR <- MBR; PC <- PC + 1`, every write width-checked. -/
def fetch (s : State) (k : State → Result) : Result :=
  writeReg .mar s.pc.toNat s fun s =>
  memRead s.mar.toNat s fun w =>
  writeReg .mbr w.toNat s fun s =>
  writeReg .ir s.mbr.toNat s fun s =>
  writeReg .pc (s.pc.toNat + 1) s k

/-- The word a fetch at the current PC reads. -/
def State.fetchWord (s : State) : Word := Memory.read s.mem s.pc.toNat

/-- The state after a fetch that does not fail: what the execute phase starts from (R74, R76). -/
def State.fetched (s : State) : State :=
  { s with mar := s.pc, mbr := s.fetchWord, ir := s.fetchWord, pc := s.pc + 1 }

/-- The state a failed fetch has reached: MAR, MBR and IR written, PC kept (R74, R110). -/
def State.fetchFailed (s : State) : State :=
  { s with mar := s.pc, mbr := s.fetchWord, ir := s.fetchWord }

end Sys2Proof.Machine
end

