-- ==== Sys2Proof/Machine/Flags.lean ====
section
/-! DEFINITION. The engine has no flags (spec/10_state.md R19). This file holds what stands in their place: the tests
SKIPCOND computes from AC when it executes (spec/41_control.md R91), and the checked sum and difference of
spec/42_memory_arith.md R95, whose overflow and underflow are fatal errors. -/

namespace Sys2Proof.Machine

/-- "AC's sign bit set": `AC[15] = 1` (R91, condition 0). -/
def signSet (a : Word) : Bool := a.msb

/-- `AC = 0` (R91, condition 1). -/
def isZero (a : Word) : Bool := a == 0

/-- "AC>0 and sign bit clear": `AC[15] = 0 and AC != 0` (R91, condition 2; C2). -/
def isPositive (a : Word) : Bool := !a.msb && a != 0

/-- Whether a skip is taken, for the three conditions that have a test; `none` for condition 3 (R91). -/
def skipTaken (c : BitVec 2) (a : Word) : Option Bool :=
  match c.toNat with
  | 0 => some (signSet a)
  | 1 => some (isZero a)
  | 2 => some (isPositive a)
  | _ => none

/-- `s := AC + m`, raising `ArithmeticOverflowError` above 65535, else `AC <- s` (R95, R98, R101). -/
def addToAc (m : Word) (s : State) (k : State → Result) : Result :=
  let sum : Int := s.ac.toNat + m.toNat
  if (maxWord : Int) < sum then raise .arithmeticOverflow s else writeReg .ac sum s k

/-- `d := AC - m`, raising `ArithmeticUnderflowError` below 0, else `AC <- d` (R95, R99). -/
def subFromAc (m : Word) (s : State) (k : State → Result) : Result :=
  let difference : Int := (s.ac.toNat : Int) - m.toNat
  if difference < 0 then raise .arithmeticUnderflow s else writeReg .ac difference s k

end Sys2Proof.Machine
end

