-- ==== Sys2Proof/Machine/Operands.lean ====
section
/-! DEFINITION. The operand forms (spec/30_encoding.md R52, R53; spec/42_memory_arith.md R94): direct address, indirect
address through a pointer word, condition, none. The operand is an unsigned 12-bit number, never extended by sign, scaled or
shifted. -/

namespace Sys2Proof.Machine

/-- Direct: the effective address is the operand itself, always in 0..4095 (R94). -/
def directAddr (x : Addr) : Nat := x.toNat

/-- Indirect: the effective address is the word at the operand, which may exceed 4095 (R36, R94). -/
def indirectAddr (s : State) (x : Addr) : Nat := (Memory.read s.mem (directAddr x)).toNat

/-- Read the data word of a direct operand (R96, R98, R99). -/
def readDirect (x : Addr) (s : State) (k : Word → Result) : Result :=
  memRead (directAddr x) s k

/-- Read the pointer word of an indirect operand, then the word it points at (R101, R102). -/
def readIndirect (x : Addr) (s : State) (k : Word → Result) : Result :=
  memRead (directAddr x) s fun p => memRead p.toNat s k

/-- Write a word to a direct operand (R90, R97). -/
def writeDirect (x : Addr) (v : Word) (s : State) (k : State → Result) : Result :=
  memWrite (directAddr x) v s k

/-- Read the pointer word of an indirect operand, then write to the cell it points at (R103). -/
def writeIndirect (x : Addr) (v : Word) (s : State) (k : State → Result) : Result :=
  memRead (directAddr x) s fun p => memWrite p.toNat v s k

end Sys2Proof.Machine
end

