-- ==== Sys2Proof/Machine/Arith.lean ====
section
/-! DEFINITION. Arithmetic on AC: ADD, SUBT, CLEAR, ADDI (spec/42_memory_arith.md R95, R98–R101), execute phase only.
Arithmetic is on unsigned integers; a result that does not fit is a fatal error, never a wrapped value. -/

namespace Sys2Proof.Machine

/-- ADD X: `AC <- AC + M[X]`, or `ArithmeticOverflowError` (R98). -/
def execAdd (x : Addr) (s : State) : Result :=
  readDirect x s fun m => addToAc m s .next

/-- SUBT X: `AC <- AC - M[X]`, or `ArithmeticUnderflowError` (R99). -/
def execSubt (x : Addr) (s : State) : Result :=
  readDirect x s fun m => subFromAc m s .next

/-- CLEAR: `AC <- 0` (R100). -/
def execClear (_ignored : BitVec 12) (s : State) : Result :=
  writeReg .ac 0 s .next

/-- ADDI X: `AC <- AC + M[M[X]]`; the address check comes before the overflow check (R101). -/
def execAddi (x : Addr) (s : State) : Result :=
  readIndirect x s fun m => addToAc m s .next

end Sys2Proof.Machine
end

