-- ==== Sys2Proof/Machine/Control.lean ====
section
/-! DEFINITION. Control transfer: JNS, SKIPCOND, JUMP, JUMPI (spec/41_control.md R89–R93), and the word with opcode 15
(spec/30_encoding.md R55). Each meaning is the execute phase alone: the fetch has run, so PC is the instruction's address
plus one (spec/40_engine.md R76). -/

namespace Sys2Proof.Machine

/-- JNS X: `MemWrite(X, 1, zext_16(PC)); PC <- X + 1` (R90). -/
def execJns (x : Addr) (s : State) : Result :=
  writeDirect x (s.pc.setWidth 16) s fun s => writeReg .pc (x.toNat + 1) s .next

/-- SKIPCOND c: `PC <- PC + 1` when AC meets the condition; condition 3 raises `InvalidConditionError` (R91). -/
def execSkipcond (c : BitVec 2) (_ignored : BitVec 10) (s : State) : Result :=
  match skipTaken c s.ac with
  | none => raise (.invalidCondition c) s
  | some true => writeReg .pc (s.pc.toNat + 1) s .next
  | some false => .next s

/-- JUMP X: `PC <- X` (R92). -/
def execJump (x : Addr) (s : State) : Result :=
  writeReg .pc x.toNat s .next

/-- JUMPI X: `t := MemRead(X, 1); PC <- t` (R93). -/
def execJumpi (x : Addr) (s : State) : Result :=
  readDirect x s fun t => writeReg .pc t.toNat s .next

/-- Opcode 15: `raise UnknownOpcodeError(15)` (R55, R77). -/
def execIllegal (_ignored : BitVec 12) (s : State) : Result :=
  raise (.unknownOpcode 15) s

end Sys2Proof.Machine
end

