-- ==== Sys2Proof/Machine/InOut.lean ====
section
/-! DEFINITION. Input, output and halt: INPUT, OUTPUT, HALT (spec/43_io_halt.md R104–R106), execute phase only. They ignore
their operand field and make no memory access. -/

namespace Sys2Proof.Machine

/-- INPUT: take the head of the queue into AC; with an empty queue move PC back to the INPUT, pause and ask for input
(R104, R115). -/
def execInput (_ignored : BitVec 12) (s : State) : Result :=
  match s.inQ with
  | v :: rest => writeReg .ac v.toNat { s with inQ := rest } .next
  | [] => writeReg .pc ((s.pc.toNat : Int) - 1) s fun s => .next ({ s with runState := .paused }.emit .inputRequested)

/-- OUTPUT: `emit Output(AC)` and append AC to the output log (R105). -/
def execOutput (_ignored : BitVec 12) (s : State) : Result :=
  let s := s.emit (.output s.ac)
  .next { s with outLog := s.outLog ++ [s.ac] }

/-- HALT: Halted, cause HaltInstr, `emit ProgramEnd` (R106). -/
def execHalt (_ignored : BitVec 12) (s : State) : Result :=
  .next ({ s with runState := .halted, haltCause := .haltInstr }.emit .programEnd)

end Sys2Proof.Machine
end

