-- ==== Sys2Proof/Machine/LoadStore.lean ====
section
/-! DEFINITION. Loads and stores: LOAD, STORE, LOADI, STOREI (spec/42_memory_arith.md R94, R96, R97, R102, R103), execute
phase only. -/

namespace Sys2Proof.Machine

/-- LOAD X: `AC <- MemRead(X, 1)` (R96). -/
def execLoad (x : Addr) (s : State) : Result :=
  readDirect x s fun m => writeReg .ac m.toNat s .next

/-- STORE X: `MemWrite(X, 1, AC)` (R97). -/
def execStore (x : Addr) (s : State) : Result :=
  writeDirect x s.ac s .next

/-- LOADI X: `p := MemRead(X, 1); AC <- MemRead(p, 1)` (R102). -/
def execLoadi (x : Addr) (s : State) : Result :=
  readIndirect x s fun m => writeReg .ac m.toNat s .next

/-- STOREI X: `p := MemRead(X, 1); MemWrite(p, 1, AC)` (R103). -/
def execStorei (x : Addr) (s : State) : Result :=
  writeIndirect x s.ac s .next

end Sys2Proof.Machine
end

