-- ==== Sys2Proof/Machine/Dispatch.lean ====
section
/-! DEFINITION. The execute phase: the rule each opcode selects (spec/40_engine.md R77). -/

namespace Sys2Proof.Machine

/-- One arm per constructor of Instr (R77). -/
def exec (i : Instr) (s : State) : Host.Outcome State Fault Refusal :=
  match i with
  | .jns x => Sys2Proof.Machine.execJns x s
  | .load x => Sys2Proof.Machine.execLoad x s
  | .store x => Sys2Proof.Machine.execStore x s
  | .add x => Sys2Proof.Machine.execAdd x s
  | .subt x => Sys2Proof.Machine.execSubt x s
  | .input g => Sys2Proof.Machine.execInput g s
  | .output g => Sys2Proof.Machine.execOutput g s
  | .halt g => Sys2Proof.Machine.execHalt g s
  | .skipcond c g => Sys2Proof.Machine.execSkipcond c g s
  | .jump x => Sys2Proof.Machine.execJump x s
  | .clear g => Sys2Proof.Machine.execClear g s
  | .addi x => Sys2Proof.Machine.execAddi x s
  | .jumpi x => Sys2Proof.Machine.execJumpi x s
  | .loadi x => Sys2Proof.Machine.execLoadi x s
  | .storei x => Sys2Proof.Machine.execStorei x s
  | .illegal g => Sys2Proof.Machine.execIllegal g s

end Sys2Proof.Machine
end

