-- ==== Sys2Proof/Machine/Placement.lean ====
section
/-! DEFINITION. Placing one instruction where the next step fetches it. A program comes to run only through the load command
(spec/40_engine.md R80, spec/70_reset_and_hazards.md R124): this stands for that load, for one word (log 11). -/

namespace Sys2Proof.Machine

/-- The 16-bit word whose bits are the low `nbits` bits of `w`, zero above them (R50). -/
def tableWord (nbits w : Nat) : Word := BitVec.ofNat 16 (w % 2 ^ nbits)

/-- Where the placed word goes: at PC, but at the load address 0 when PC is 4095, since "the instruction at address 4095 is
never executed" (R74). -/
def State.placementAddr (s : State) : Addr := if s.pc = 4095 then 0 else s.pc

/-- `s` with `w` where the next step fetches, and the engine Running with no halt cause and no error record, as a load
leaves them (R80). Everything else is kept. -/
def State.withProgramWord (s : State) (w : Word) : State :=
  { s with
    pc := s.placementAddr
    mem := Memory.write s.mem s.placementAddr.toNat w
    runState := .running
    haltCause := .none
    err := .none }

end Sys2Proof.Machine
end

