-- ==== Sys2Proof/Machine/Step.lean ====
section
/-! DEFINITION. One step: fetch, decode, execute (spec/40_engine.md R73, R78). -/

namespace Sys2Proof.Machine

/-- `step()`: refused outside Running (R73); otherwise the fetch, then the rule the opcode of IR selects (R78). -/
def step (s : State) : Host.Outcome State Fault Refusal :=
  if s.runState = .running then fetch s fun t => exec (decode t.ir) t else .refused .stepNotRunning

/-- The state in which the very next step fetches and runs the instruction whose bits are `w` (log 11). -/
def State.withFetchWord (s : State) (nbits w : Nat) : State := s.withProgramWord (tableWord nbits w)

end Sys2Proof.Machine
end

