-- ==== Sys2Proof/Machine/Assembler.lean ====
section
/-! DEFINITION. The two-pass assembler, the toolchain that writes programs for the engine (spec/30_encoding.md R60–R70). It
is no part of the hardware (spec/00_scope.md R3) and no rule of the engine depends on it. The source is a list of
characters: the text R60 reads, already decoded from UTF-8 (log 17). -/

namespace Sys2Proof.Assembler

/-- Source text, or a piece of it. -/
abbrev Text := List Char

/-- The names bound in pass 1, with the addresses they stand for (R62). -/
abbrev SymbolTable := List (Text × Nat)

/-! ## What can be wrong with a line -/

/-- The error kinds of R69. -/
inductive ErrorKind where
  | syntaxError
  | undefinedSymbolError
  deriving DecidableEq, Repr

/-- Why an assembly fails (R62, R63, R65, R67, R70). -/
inductive Problem where
  | requiresArgument
  | doesNotAcceptArgument
  | extraOperand
  | requiresValidCondition
  | invalidNumericLiteral
  | undefinedSymbol
  | unknownInstruction
  | malformedLabel
  | requiresInstruction
  | duplicateLabel
  | programTooLong
  deriving DecidableEq, Repr

/-- The kind a problem is reported under (R65, R67, R69, R70). -/
def Problem.kind : Problem → ErrorKind
  | .undefinedSymbol => .undefinedSymbolError
  | .requiresArgument | .doesNotAcceptArgument | .extraOperand | .requiresValidCondition | .invalidNumericLiteral
  | .unknownInstruction | .malformedLabel | .requiresInstruction | .duplicateLabel | .programTooLong => .syntaxError

/-- The message of a problem, in the spec's words; R63 gives none for an extra operand (log 19). -/
def Problem.message : Problem → String
  | .requiresArgument => "requires an argument"
  | .doesNotAcceptArgument => "does not accept an argument"
  | .extraOperand => "more than one operand"
  | .requiresValidCondition => "requires a valid condition"
  | .invalidNumericLiteral => "invalid numeric literal"
  | .undefinedSymbol => "undefined symbol"
  | .unknownInstruction => "unknown instruction"
  | .malformedLabel => "malformed label"
  | .requiresInstruction => "requires an instruction"
  | .duplicateLabel => "duplicate label"
  | .programTooLong => "program too long"

/-- A failed assembly: the 1-based number of the source line, counting skipped lines, and what is wrong (R69). -/
structure AsmError where
  line : Nat
  problem : Problem
  deriving DecidableEq, Repr

/-! ## Characters, lines and tokens -/

/-- White space within a line (log 17). -/
def isBlank (c : Char) : Bool := c == ' ' || c == '\t' || c == '\r' || c == '\x0b' || c == '\x0c'

/-- What separates tokens: white space and commas (R63 step 2). -/
def isSeparator (c : Char) : Bool := isBlank c || c == ','

def isLetter (c : Char) : Bool := (decide ('a' ≤ c) && decide (c ≤ 'z')) || (decide ('A' ≤ c) && decide (c ≤ 'Z'))

def isDigit (c : Char) : Bool := decide ('0' ≤ c) && decide (c ≤ '9')

/-- The lower-case letter of an upper-case one; any other character unchanged. -/
def lowerChar (c : Char) : Char :=
  if decide ('A' ≤ c) && decide (c ≤ 'Z') then Char.ofNat (c.toNat + 32) else c

def lower (t : Text) : Text := t.map lowerChar

/-- One statement per line (R60). -/
def splitLines : Text → List Text
  | [] => [[]]
  | c :: cs =>
    if c == '\n' then [] :: splitLines cs
    else match splitLines cs with
      | l :: ls => (c :: l) :: ls
      | [] => [[c]]

/-- A line without its comment, from the first `//` to the end (R60, R63 step 1). -/
def stripComment : Text → Text
  | [] => []
  | [c] => [c]
  | c :: d :: cs => if c == '/' && d == '/' then [] else c :: stripComment (d :: cs)

/-- A line is skipped when it is blank or when, white space removed, it starts with `//` (R60). -/
def isSkipped (line : Text) : Bool :=
  let t := line.dropWhile isBlank
  t.isEmpty || t.take 2 == ['/', '/']

/-- The tokens of a text, `current` being the token begun so far; empty tokens are dropped (R63 step 2, D22). -/
def tokensFrom (current : Text) : Text → List Text
  | [] => if current.isEmpty then [] else [current]
  | c :: cs =>
    if isSeparator c then
      if current.isEmpty then tokensFrom [] cs else current :: tokensFrom [] cs
    else tokensFrom (current ++ [c]) cs

def tokens (t : Text) : List Text := tokensFrom [] t

/-- A source line that occupies a word: its 1-based number and its text without the comment. -/
structure SourceLine where
  number : Nat
  text : Text
  deriving DecidableEq, Repr

/-- The non-skipped lines, numbered from `n` on, counting the skipped ones (R61, R69). -/
def numberLines : Nat → List Text → List SourceLine
  | _, [] => []
  | n, l :: ls => if isSkipped l then numberLines (n + 1) ls else ⟨n, stripComment l⟩ :: numberLines (n + 1) ls

/-- The non-skipped lines of a source, in order: the line at index `a` has address `a` (R61). -/
def sourceLines (source : Text) : List SourceLine := numberLines 1 (splitLines source)

/-! ## Mnemonics -/

/-- What a mnemonic's operand is (R64, R65). -/
inductive OperandKind where
  | none
  | address
  | condition
  | decimal
  | hexadecimal
  deriving DecidableEq, Repr

/-- A mnemonic, the opcode it adds (0 for the data directives, which add none: R66) and its operand. -/
structure MnemonicRow where
  name : Text
  opcode : Nat
  operand : OperandKind
  deriving DecidableEq, Repr

/-- The 17 mnemonics (R64, R68) with the opcodes of R54. -/
def mnemonicTable : List MnemonicRow :=
  [⟨['j', 'n', 's'], 0, .address⟩, ⟨['l', 'o', 'a', 'd'], 1, .address⟩, ⟨['s', 't', 'o', 'r', 'e'], 2, .address⟩,
   ⟨['a', 'd', 'd'], 3, .address⟩, ⟨['s', 'u', 'b', 't'], 4, .address⟩, ⟨['i', 'n', 'p', 'u', 't'], 5, .none⟩,
   ⟨['o', 'u', 't', 'p', 'u', 't'], 6, .none⟩, ⟨['h', 'a', 'l', 't'], 7, .none⟩] ++
  [⟨['s', 'k', 'i', 'p', 'c', 'o', 'n', 'd'], 8, .condition⟩, ⟨['j', 'u', 'm', 'p'], 9, .address⟩,
   ⟨['c', 'l', 'e', 'a', 'r'], 10, .none⟩, ⟨['a', 'd', 'd', 'i'], 11, .address⟩,
   ⟨['j', 'u', 'm', 'p', 'i'], 12, .address⟩, ⟨['l', 'o', 'a', 'd', 'i'], 13, .address⟩,
   ⟨['s', 't', 'o', 'r', 'e', 'i'], 14, .address⟩] ++
  [⟨['d', 'e', 'c'], 0, .decimal⟩, ⟨['h', 'e', 'x'], 0, .hexadecimal⟩]

/-- Mnemonics are matched without regard to case (R63). -/
def findMnemonic (token : Text) : Option MnemonicRow := mnemonicTable.find? fun r => r.name == lower token

/-! ## Labels and the symbol table -/

/-- Labels are matched with regard to case (R63, D22). -/
def lookup (table : SymbolTable) (name : Text) : Option Nat := (table.find? fun e => e.1 == name).map (·.2)

/-- A letter or `_`, then letters, digits or `_`, and not a mnemonic in any case (R67). -/
def isIdentifier (name : Text) : Bool :=
  match name with
  | [] => false
  | c :: cs =>
    (isLetter c || c == '_') && cs.all (fun d => isLetter d || isDigit d || d == '_') && (findMnemonic name).isNone

/-- The text a line offers as a label: its first token, when a comma follows it directly (R60, R62; log 18). -/
def labelOf (line : Text) : Option Text :=
  let t := line.dropWhile isBlank
  let name := t.takeWhile fun c => !isSeparator c
  if !name.isEmpty && (t.drop name.length).head? == some ',' then some name else none

/-- Pass 1 (R62): bind each line's label to the line's address. The line of the 4097th word fails (R70). -/
def pass1 (table : SymbolTable) (address : Nat) : List SourceLine → Except AsmError SymbolTable
  | [] => .ok table
  | l :: ls =>
    if memSize ≤ address then .error ⟨l.number, .programTooLong⟩
    else match labelOf l.text with
      | none => pass1 table (address + 1) ls
      | some name =>
        if !isIdentifier name then .error ⟨l.number, .malformedLabel⟩
        else if (lookup table name).isSome then .error ⟨l.number, .duplicateLabel⟩
        else pass1 (table ++ [(name, address)]) (address + 1) ls

/-! ## Literals -/

/-- The value of a hexadecimal digit (R67). -/
def hexDigit (c : Char) : Option Nat :=
  if isDigit c then some (c.toNat - '0'.toNat)
  else if decide ('a' ≤ c) && decide (c ≤ 'f') then some (c.toNat - 'a'.toNat + 10)
  else if decide ('A' ≤ c) && decide (c ≤ 'F') then some (c.toNat - 'A'.toNat + 10)
  else none

/-- The value of a decimal digit (R67). -/
def decimalDigit (c : Char) : Option Nat := if isDigit c then some (c.toNat - '0'.toNat) else none

/-- The value of a run of digits of a radix, `value` being that of the digits before it. -/
def digitsFrom (digit : Char → Option Nat) (radix : Nat) (value : Nat) : Text → Option Nat
  | [] => some value
  | c :: cs =>
    match digit c with
    | some d => digitsFrom digit radix (value * radix + d) cs
    | none => none

/-- One or more digits of a radix. -/
def digits (digit : Char → Option Nat) (radix : Nat) (t : Text) : Option Nat :=
  if t.isEmpty then none else digitsFrom digit radix 0 t

/-- A decimal literal: an optional sign, then one or more digits (R67). -/
def decimalLiteral (t : Text) : Option Int :=
  match t with
  | '+' :: ds => (digits decimalDigit 10 ds).map fun n => (n : Int)
  | '-' :: ds => (digits decimalDigit 10 ds).map fun n => -(n : Int)
  | ds => (digits decimalDigit 10 ds).map fun n => (n : Int)

/-- A hexadecimal literal: one or more hexadecimal digits, no radix mark and no sign (R67). -/
def hexLiteral (t : Text) : Option Int := (digits hexDigit 16 t).map fun n => (n : Int)

/-- A numeric literal of an address-taking mnemonic, in the radix the parameter gives (R65 step 3(e), D21). -/
def addressLiteral (radix : AddrLiteralRadix) (t : Text) : Option Int :=
  match radix with
  | .ten => decimalLiteral t
  | .sixteen => hexLiteral t

/-- A literal's value when it lies in 0..`bound`; `p` is what is wrong when it is no literal or lies outside. -/
def bounded (bound : Nat) (p : Problem) (v : Option Int) : Except Problem Nat :=
  match v with
  | some n => if 0 ≤ n ∧ n ≤ bound then .ok n.toNat else .error p
  | none => .error p

/-! ## Pass 2 -/

/-- A SKIPCOND operand must be 0, 1024 or 2048 (R65). -/
def checkedCondition (n : Int) : Except Problem Nat :=
  if n = 0 ∨ n = 1024 ∨ n = 2048 then .ok n.toNat else .error .requiresValidCondition

/-- The value of an operand token: a symbol before a literal (R65 step 3). A SKIPCOND token that is neither is an
undefined symbol (C5; log 20). -/
def resolve (radix : AddrLiteralRadix) (table : SymbolTable) (kind : OperandKind) (token : Text) : Except Problem Nat :=
  match kind, lookup table token with
  | .condition, some a => checkedCondition a
  | _, some a => .ok a
  | .decimal, none => bounded maxWord .invalidNumericLiteral (decimalLiteral token)
  | .hexadecimal, none => bounded maxWord .invalidNumericLiteral (hexLiteral token)
  | .condition, none =>
    match decimalLiteral token with
    | some n => checkedCondition n
    | none => .error .undefinedSymbol
  | .address, none => bounded (memSize - 1) .undefinedSymbol (addressLiteral radix token)
  | .none, none => .error .doesNotAcceptArgument

/-- The operand value of a line's operand tokens, with the checks of R65 steps 1 to 3 and R63's limit of one operand. -/
def operandValue (radix : AddrLiteralRadix) (table : SymbolTable) (kind : OperandKind) (operands : List Text) :
    Except Problem Nat :=
  match kind, operands with
  | .none, [] => .ok 0
  | .none, _ :: _ => .error .doesNotAcceptArgument
  | _, [] => .error .requiresArgument
  | kind, [token] => resolve radix table kind token
  | _, _ :: _ :: _ => .error .extraOperand

/-- A line's tokens without its label (R63 step 3). -/
def withoutLabel (table : SymbolTable) (ts : List Text) : List Text :=
  match ts with
  | [] => []
  | t :: rest => if (lookup table t).isSome then rest else ts

/-- The word of a line: opcode times 4096 plus operand, or the literal itself for `dec` and `hex` (R65, R66). -/
def assembleLine (radix : AddrLiteralRadix) (table : SymbolTable) (line : Text) : Except Problem Word :=
  match withoutLabel table (tokens line) with
  | [] => .error .requiresInstruction
  | mnemonic :: operands =>
    match findMnemonic mnemonic with
    | none => .error .unknownInstruction
    | some row =>
      match operandValue radix table row.operand operands with
      | .ok v => .ok (BitVec.ofNat 16 (row.opcode * 4096 + v))
      | .error p => .error p

/-- Pass 2 (R63): the words of the lines in order, or the first error (R69). -/
def pass2 (radix : AddrLiteralRadix) (table : SymbolTable) : List SourceLine → Except AsmError (List Word)
  | [] => .ok []
  | l :: ls =>
    match assembleLine radix table l.text with
    | .error p => .error ⟨l.number, p⟩
    | .ok w =>
      match pass2 radix table ls with
      | .error e => .error e
      | .ok ws => .ok (w :: ws)

/-- The assembler: the words and the symbol table, or the first error, with no partial machine code (R69). -/
def assemble (cfg : Config) (source : Text) : Except AsmError (List Word × SymbolTable) :=
  match pass1 [] 0 (sourceLines source) with
  | .error e => .error e
  | .ok table =>
    match pass2 cfg.addrLiteralRadix table (sourceLines source) with
    | .error e => .error e
    | .ok words => .ok (words, table)

/-- The image the host hands to the load command for an assembled program (R61). -/
def imageOf (words : List Word) : List Int := words.map fun w => (w.toNat : Int)

end Sys2Proof.Assembler
end

