-- ==== Sys2Proof/Machine/HostCommands.lean ====
section
/-! DEFINITION. The host's commands and the run-state machine they drive (spec/40_engine.md R71, R72, R80–R88;
spec/10_state.md R28). Each command is one atomic transition of the whole state, and commands are totally ordered, so a
session with the engine is a list of commands (R71, R72). Words and values the host hands over are integers, because the
engine checks their range (R42, R82; log 12). -/

namespace Sys2Proof.Machine

/-- A value the load and set-input commands accept: 0..65535 (R42, R82). -/
def inWordRange (v : Int) : Bool := decide (0 ≤ v) && decide (v ≤ maxWord)

/-- The words of accepted values. -/
def toWords (vs : List Int) : List Word := vs.map (BitVec.ofInt 16)

/-- What becomes of the input queue at a load (R6, R80, D10). -/
def queueAfterLoad (cfg : Config) (q : List Word) : List Word :=
  match cfg.inputQueueOnLoad with
  | .keep => q
  | .clear => []

/-- The state an accepted load leaves: memory the image followed by zeros, registers 0, log, error record and halt cause
empty, Running (R80, R124). The event stream goes on: the load emits no event. -/
def State.loaded (cfg : Config) (image : List Word) (s : State) : State where
  ac := 0
  ir := 0
  mbr := 0
  mar := 0
  pc := 0
  mem := Memory.image 0 image
  runState := .running
  haltCause := .none
  err := .none
  inQ := queueAfterLoad cfg s.inQ
  outLog := []
  events := s.events

/-- `load(w[0..n-1])`, accepted in every state; an image that breaks either bound is refused (R42, R80, D2). -/
def load (cfg : Config) (image : List Int) (s : State) : Result :=
  if memSize < image.length then .refused .imageTooLong
  else if image.all inWordRange then .next (s.loaded cfg (toWords image))
  else .refused .imageWordOutOfRange

/-- `setInput(v[0..k-1])`: append the whole batch to the queue's tail, or refuse the whole batch (R82, D7). -/
def setInput (values : List Int) (s : State) : Result :=
  if values.all inWordRange then .next { s with inQ := s.inQ ++ toWords values }
  else .refused .inputValueOutOfRange

/-- `resume()`: Paused to Running; no effect in any other state (R83, D8). -/
def resume (s : State) : State :=
  if s.runState = .paused then { s with runState := .running } else s

/-- `stop()`: Halted with cause Stopped from Idle, Running or Paused; no effect in Halted (R84, D9). -/
def stop (s : State) : State :=
  if s.runState = .halted then s else { s with runState := .halted, haltCause := .stopped }

/-- What the inspect command returns: not `inQ`, `haltCause` or `err` (R28). -/
structure Snapshot where
  ac : Word
  pc : Addr
  ir : Word
  mar : Addr
  mbr : Word
  /-- True exactly in Running (R28, D13; log 14). -/
  running : Bool
  /-- A copy of all 4096 cells, cell 0 first. -/
  memory : List Word
  outLog : List Word
  deriving DecidableEq, Repr

/-- `inspect()` (R28, R85). -/
def inspect (s : State) : Snapshot where
  ac := s.ac
  pc := s.pc
  ir := s.ir
  mar := s.mar
  mbr := s.mbr
  running := decide (s.runState = .running)
  memory := (List.range memSize).map (Memory.read s.mem)
  outLog := s.outLog

/-- `getOutput()`: the output log alone (R28, R85). -/
def getOutput (s : State) : List Word := s.outLog

/-- The commands that are one transition each (R71, R88). Run is the sequence of its steps (R81): see `runFor`. -/
inductive Command where
  | load (image : List Int)
  | step
  | setInput (values : List Int)
  | resume
  | stop
  | inspect
  | getOutput
  deriving DecidableEq, Repr

/-- What the engine returns to a command (R88). -/
inductive Reply where
  /-- Accepted, nothing to return. -/
  | accepted
  /-- The events of a step (R79, R88). -/
  | stepped (events : List Event)
  /-- Turned away, with no state change. -/
  | refused (r : Refusal)
  /-- The machine stopped with a fault; no fault exists. -/
  | faulted (f : Fault)
  | snapshot (s : Snapshot)
  | output (log : List Word)
  deriving DecidableEq, Repr

/-- The state a command leaves and the engine's reply, from what the command's operation answered in state `s`. -/
def settle (s : State) (r : Result) (reply : State → Reply) : State × Reply :=
  match r with
  | .next t => (t, reply t)
  | .fault f => (s, .faulted f)
  | .refused why => (s, .refused why)

/-- One host command (R71, R86). A refusal changes no state. -/
def perform (cfg : Config) (c : Command) (s : State) : State × Reply :=
  match c with
  | .load image => settle s (load cfg image s) fun _ => .accepted
  | .step => settle s (step s) fun t => .stepped (t.events.drop s.events.length)
  | .setInput values => settle s (setInput values s) fun _ => .accepted
  | .resume => (resume s, .accepted)
  | .stop => (stop s, .accepted)
  | .inspect => (s, .snapshot (inspect s))
  | .getOutput => (s, .output (getOutput s))

/-- A session: commands in order, none starting before the one before it has ended (R72). -/
def performAll (cfg : Config) : List Command → State → State
  | [], s => s
  | c :: cs, s => performAll cfg cs (perform cfg c s).1

/-- At most `n` steps of the run command: step while Running (R81; log 22). -/
def runFor : Nat → State → State
  | 0, s => s
  | n + 1, s =>
    match step s with
    | .next t => runFor n t
    | .fault _ => s
    | .refused _ => s

end Sys2Proof.Machine
end

