-- ==== Sys2Proof/Safety.lean ====
section
/-! DEFINITION. The terms claims use: the invariant of every state the engine can be in, what it means to halt with a fatal
error, the fatal error a step raises as spec/60_exceptions.md R111 lists the places, the outcome of a run (spec/40_engine.md
R87), the cell an instruction stores to, and the states the host's commands reach. -/

namespace Sys2Proof.Machine

/-! ## The invariant -/

/-- What holds of every state the host can bring about. -/
structure State.Inv (s : State) : Prop where
  /-- Memory is in canonical form: equal memories are equal data, all cells below 4096. -/
  memory_wf : Memory.wf s.mem = true
  /-- `haltCause` is `None` exactly when the engine is not Halted (R23). -/
  haltCause_none : s.haltCause = .none ↔ s.runState ≠ .halted
  /-- An error record is held exactly when the cause is Fatal (R24). -/
  err_held : s.err.isSome ↔ s.haltCause = .fatal
  /-- MBR equals IR after every step (R18, the spec's decision D3; log 2). -/
  mbr_eq_ir : s.mbr = s.ir
  /-- While Paused, PC points back at the INPUT that paused, which MAR and IR still hold (R30, R104). -/
  paused_at_input : s.runState = .paused →
    s.pc = s.mar ∧ s.pc ≠ 4095 ∧ s.ir = s.fetchWord ∧ opcodeOf s.ir = 5

/-- The states the host's commands reach from construction (R86, R88). -/
inductive Reachable (cfg : Config) : State → Prop where
  | construction : Reachable cfg State.reset
  | command (c : Command) {s : State} (h : Reachable cfg s) : Reachable cfg (perform cfg c s).1

/-! ## Fatal errors -/

/-- The answer `r`, given from state `s`, is a halt with fatal error `e`: the engine is Halted, the error has been notified,
and no register, cell, queue or log differs from `s` (R109). What `haltCause` and `err` hold is left out here: they are the
spec's own decision D12, and `State.raised` says it. -/
def HaltsWith (r : Result) (e : FatalError) (s : State) : Prop :=
  ∃ t : State, r = .next t ∧ t.runState = .halted ∧ t.events = s.events ++ [.error e] ∧
    t.ac = s.ac ∧ t.ir = s.ir ∧ t.mbr = s.mbr ∧ t.mar = s.mar ∧ t.pc = s.pc ∧ t.mem = s.mem ∧
    t.inQ = s.inQ ∧ t.outLog = s.outLog

/-- The fatal error a step from `s` raises, by the list of R111 in its order: the fetch, the opcode, the execute rule. -/
def State.stepError (s : State) : Option FatalError :=
  if s.pc = 4095 then some (.rangeError (.reg .pc))
  else
    let cell (a : Nat) : Nat := (Memory.read s.mem a).toNat
    match decode s.fetchWord with
    | .illegal _ => some (.unknownOpcode 15)
    | .jns x => if x = 4095 then some (.rangeError (.reg .pc)) else none
    | .skipcond c _ =>
      if c = 3 then some (.invalidCondition 3)
      else if skipTaken c s.ac = some true ∧ s.pc = 4094 then some (.rangeError (.reg .pc))
      else none
    | .jumpi x => if 4095 < cell x.toNat then some (.rangeError (.reg .pc)) else none
    | .loadi x | .storei x => if 4095 < cell x.toNat then some (.rangeError .addr) else none
    | .addi x =>
      if 4095 < cell x.toNat then some (.rangeError .addr)
      else if maxWord < s.ac.toNat + cell (cell x.toNat) then some .arithmeticOverflow
      else none
    | .add x => if maxWord < s.ac.toNat + cell x.toNat then some .arithmeticOverflow else none
    | .subt x => if s.ac.toNat < cell x.toNat then some .arithmeticUnderflow else none
    | .load _ | .store _ | .input _ | .output _ | .halt _ | .jump _ | .clear _ => none

/-- The run state a step from `s` ends in: the step column of the transition table (R86). -/
def State.stepRunState (s : State) : RunState :=
  match s.stepError with
  | some _ => .halted
  | none =>
    match decode s.fetchWord with
    | .halt _ => .halted
    | .input _ => if s.inQ = [] then .paused else .running
    | .jns _ | .load _ | .store _ | .add _ | .subt _ | .output _ | .skipcond _ _ | .jump _ | .clear _
    | .addi _ | .jumpi _ | .loadi _ | .storei _ | .illegal _ => .running

/-- The events a step from `s` emits, at most one (R79). -/
def State.stepEvents (s : State) : List Event :=
  match s.stepError with
  | some e => [.error e]
  | none =>
    match decode s.fetchWord with
    | .halt _ => [.programEnd]
    | .input _ => if s.inQ = [] then [.inputRequested] else []
    | .output _ => [.output s.ac]
    | .jns _ | .load _ | .store _ | .add _ | .subt _ | .skipcond _ _ | .jump _ | .clear _
    | .addi _ | .jumpi _ | .loadi _ | .storei _ | .illegal _ => []

/-! ## Memory writes -/

/-- The cell an instruction stores to, by the effective address its meaning uses; none for a form that stores nothing
(R34, R94). -/
def storeAddr (i : Instr) (s : State) : Option Nat :=
  match i with
  | .jns x => some (directAddr x)
  | .store x => some (directAddr x)
  | .storei x => some (indirectAddr s x)
  | .load _ | .add _ | .subt _ | .input _ | .output _ | .halt _ | .skipcond _ _ | .jump _ | .clear _
  | .addi _ | .jumpi _ | .loadi _ | .illegal _ => none

/-- No cell differs between two states. -/
def SameMemory (s t : State) : Prop := ∀ a, Memory.read t.mem a = Memory.read s.mem a

/-- The run-control part of two states is the same: run state, halt cause, error record, events. -/
def SameControl (s t : State) : Prop :=
  t.runState = s.runState ∧ t.haltCause = s.haltCause ∧ t.err = s.err ∧ t.events = s.events

/-- The run-control part of `t` is what a fatal error makes of that of `s` (R109). -/
def ControlRaised (s t : State) : Prop :=
  ∃ e, t.runState = .halted ∧ t.haltCause = .fatal ∧ t.err = some e ∧ t.events = s.events ++ [.error e]

/-! ## Outcomes -/

/-- The outcome of a run that started at a load (R87). -/
inductive RunOutcome where
  | completed
  | faulted
  | stopped
  | waitingForInput
  | running
  deriving DecidableEq, Repr

/-- Read a run's outcome from `exec` and `haltCause` (R87). Idle has no run, and Halted always has a cause (R23). -/
def State.outcome (s : State) : Option RunOutcome :=
  match s.runState, s.haltCause with
  | .halted, .haltInstr => some .completed
  | .halted, .fatal => some .faulted
  | .halted, .stopped => some .stopped
  | .halted, .none => none
  | .paused, _ => some .waitingForInput
  | .running, _ => some .running
  | .idle, _ => none

end Sys2Proof.Machine
end

