-- ==== Sys2Proof/Certificates/Slice0/Obligations.lean ====
section
/-! DEFINITION. The statements for the provers, from the numbered rules of spec/. Where a clause rests on one of the spec's
own decisions D<n> (spec/92_eei_decisions.md) or on a choice of the model, the docstring names it and the log entry; such a
statement is 'derived' in OBLIGATIONS.json. -/

open Sys2Proof Sys2Proof.Machine

/-! ## Construction, invariant -/

/-- The state after construction: Idle with no halt cause and no error; the zero and empty values are the spec's decision
D11 (log 1), the empty event stream the model's choice (log 9). Section 1 of spec/70_reset_and_hazards.md. -/
def Obligations.ConstructionLeavesIdleZeroState : Prop :=
  State.reset.runState = .idle ∧ State.reset.haltCause = .none ∧ State.reset.err = none ∧
  (∀ r, State.reset.reg r = 0) ∧ (∀ a, Memory.read State.reset.mem a = 0) ∧
  State.reset.inQ = [] ∧ State.reset.outLog = [] ∧ State.reset.events = [] ∧ State.reset.outcome = none

/-- The invariant holds of the state after construction. -/
def Obligations.ConstructionMeetsInvariant : Prop := State.reset.Inv

/-- The invariant is kept by every step from any state that meets it: memory stays canonical, the halt cause and the error
record stay in step with the run state (R23, R24), MBR equals IR (R18; D3, log 2), a paused engine points back at its INPUT
(R30). -/
def Obligations.StepKeepsInvariant : Prop :=
  ∀ s t : State, s.Inv → step s = .next t → t.Inv

/-- The invariant is kept by every host command, accepted or refused. -/
def Obligations.HostCommandsKeepInvariant : Prop :=
  ∀ (cfg : Config) (c : Command) (s : State), s.Inv → (perform cfg c s).1.Inv

/-! ## Shared operations -/

/-- R10: a width-checked register write, for each of the five registers and every integer. A value outside the register's
range raises `RangeError` naming the register, which keeps its old value, and the step ends (`k` does not run); a value in
range is what the register holds afterwards, and no other register changes. -/
def Obligations.RegisterWriteIsWidthChecked : Prop :=
  (Reg.width .ac = 16 ∧ Reg.width .ir = 16 ∧ Reg.width .mbr = 16 ∧ Reg.width .mar = 12 ∧ Reg.width .pc = 12) ∧
  ∀ (r : Reg) (v : Int) (s : State) (k : State → Result),
    ((v < 0 ∨ v > 2 ^ r.width - 1) → HaltsWith (writeReg r v s k) (.rangeError (.reg r)) s) ∧
    (¬ (v < 0 ∨ v > 2 ^ r.width - 1) →
      ∃ t : State, writeReg r v s k = k t ∧ (t.reg r : Int) = v ∧ (∀ q, q ≠ r → t.reg q = s.reg q) ∧
        t.mem = s.mem ∧ t.inQ = s.inQ ∧ t.outLog = s.outLog ∧ SameControl s t)

/-- The address decoder: an address in 0..4095 selects its own cell and no other, an address above raises
`RangeError(ADDR)` before any access. The error for an address above 4095 is the spec's decision D4 (log 4). -/
def Obligations.AddressDecoderSelectsOneCell : Prop :=
  ∀ (a : Nat) (v : Word) (s : State),
    (a ≤ 4095 →
      (∀ k, memRead a s k = k (Memory.read s.mem a)) ∧
      (∃ t : State, (∀ k, memWrite a v s k = k t) ∧ (∀ c, c ≠ a → Memory.read t.mem c = Memory.read s.mem c) ∧
        (Memory.wf s.mem = true → Memory.read t.mem a = v) ∧ t = { s with mem := t.mem })) ∧
    (4095 < a → ∀ k k', HaltsWith (memRead a s k) (.rangeError .addr) s ∧ HaltsWith (memWrite a v s k') (.rangeError .addr) s)

/-- Taking a fatal error (section 2 of spec/60_exceptions.md): Halted, the error notified, nothing else touched; that the
cause and the record are kept as state, and the record's form and codes, are the spec's decision D12 (log 8). -/
def Obligations.RaiseHaltsAndRecordsError : Prop :=
  (∀ (e : FatalError) (s : State), HaltsWith (raise e s) e s ∧
    ∃ t, raise e s = .next t ∧ t.haltCause = .fatal ∧ t.err = some e ∧ t.outcome = some .faulted) ∧
  (∀ target, FatalError.code (.rangeError target) = 1) ∧ FatalError.code .arithmeticOverflow = 2 ∧
  FatalError.code .arithmeticUnderflow = 3 ∧ (∀ o, FatalError.code (.unknownOpcode o) = 4) ∧
  (∀ c, FatalError.code (.invalidCondition c) = 5)

/-! ## Encoding -/

/-- R51: the decoder splits a word into `IR[15:12]` and `IR[11:0]`, yields both for every word, opcodes 0 to 14 select the
operations of R54 and opcode 15 is no operation: the step raises `UnknownOpcodeError`. -/
def Obligations.DecoderSelectsOperationByOpcode : Prop :=
  (∀ w : Word, (opcodeOf w).toNat = w.toNat / 4096 ∧ (operandOf w).toNat = w.toNat % 4096) ∧
  (∀ x : Addr,
    decode (0#4 ++ x) = .jns x ∧ decode (1#4 ++ x) = .load x ∧ decode (2#4 ++ x) = .store x ∧
    decode (3#4 ++ x) = .add x ∧ decode (4#4 ++ x) = .subt x ∧ decode (5#4 ++ x) = .input x ∧
    decode (6#4 ++ x) = .output x ∧ decode (7#4 ++ x) = .halt x ∧
    (∃ c g, (c ++ g : BitVec 12) = x ∧ decode (8#4 ++ x) = .skipcond c g) ∧
    decode (9#4 ++ x) = .jump x ∧ decode (10#4 ++ x) = .clear x ∧ decode (11#4 ++ x) = .addi x ∧
    decode (12#4 ++ x) = .jumpi x ∧ decode (13#4 ++ x) = .loadi x ∧ decode (14#4 ++ x) = .storei x ∧
    decode (15#4 ++ x) = .illegal x) ∧
  (∀ (x : Addr) (s : State), HaltsWith (exec (.illegal x) s) (.unknownOpcode 15) s)

/-- R50: a word is opcode times 4096 plus operand, equivalently `opcode << 12 | operand`, the opcode in bits 15..12 and the
operand in bits 11..0. -/
def Obligations.EncodedWordIsOpcodeTimes4096PlusOperand : Prop :=
  ∀ i : Instr,
    (encode i).toNat = (opcodeFor i).toNat * 4096 + (operandFor i).toNat ∧
    encode i = ((opcodeFor i).setWidth 16 <<< 12) ||| (operandFor i).setWidth 16 ∧
    (encode i).extractLsb' 12 4 = opcodeFor i ∧ (encode i).extractLsb' 0 12 = operandFor i

/-- Decoding an encoded instruction gives it back, for every instruction and every value of its operand bits, the ignored
ones and opcode 15 among them. -/
def Obligations.DecodeEncodeRoundTrip : Prop := ∀ i : Instr, decode (encode i) = i

/-- Every 16-bit word has one reading, and encoding that reading gives the word back: no bit of a word is dropped. -/
def Obligations.EncodeDecodeRoundTrip : Prop := ∀ w : Word, encode (decode w) = w

/-- The decoder agrees with the match and mask of every row of spec/opcode_table.json, and no word belongs to two rows. -/
def Obligations.DecoderFollowsOpcodeTable : Prop :=
  (∀ row ∈ opcodeTable, ∀ w : Word, w &&& row.mask = row.pattern ↔ (decode w).mnemonic = row.mnemonic) ∧
  (∀ w : Word, ∃ row ∈ opcodeTable, w &&& row.mask = row.pattern ∧
    ∀ row' ∈ opcodeTable, w &&& row'.mask = row'.pattern → row' = row)

/-- Words written out from the spec's encodings and examples, one or two of each family, decode to what they stand for. -/
def Obligations.SampleWordsDecode : Prop :=
  decode 0b0000000000100000 = .jns 32 ∧ decode 0b0001000000000011 = .load 3 ∧ decode 0b0011000000001000 = .add 8 ∧
  decode 0b0111000100100011 = .halt 0x123 ∧ decode 0b1000010000000000 = .skipcond 1 0 ∧
  decode 0b1110000000001010 = .storei 10 ∧ decode 0b1111000000000000 = .illegal 0

/-- The operand bits that execution ignores make no difference: a word executes as the assembler's spelling. The spec's
decision D5 (log 5). -/
def Obligations.IgnoredBitsNeverMatter : Prop :=
  ∀ (i : Instr) (s : State), exec i s = exec i.canonical s ∧ i.canonical.ignoredBitsZero = true

/-! ## Loads, stores, arithmetic -/

/-- R96: LOAD X sets AC to the word at X; nothing else changes, and nothing is raised. -/
def Obligations.LoadCopiesWordToAc : Prop :=
  (∀ x : Addr, decode (1#4 ++ x) = .load x) ∧
  ∀ (x : Addr) (s : State), exec (.load x) s = .next { s with ac := Memory.read s.mem x.toNat }

/-- R97: STORE X writes AC to the cell at X; no other cell and nothing else changes, AC among it. The cell reads as AC in
every state whose memory is canonical, which `StepKeepsInvariant` says every step keeps. -/
def Obligations.StoreWritesAcToCell : Prop :=
  (∀ x : Addr, decode (2#4 ++ x) = .store x) ∧
  ∀ (x : Addr) (s : State), ∃ t, exec (.store x) s = .next t ∧ t = { s with mem := t.mem } ∧
    (Memory.wf s.mem = true → Memory.read t.mem x.toNat = s.ac) ∧
    ∀ a, a ≠ x.toNat → Memory.read t.mem a = Memory.read s.mem a

/-- R98: ADD X sets AC to the integer sum when it is at most 65535; above that it raises `ArithmeticOverflowError` and AC
is unchanged. -/
def Obligations.AddIsExactOrOverflows : Prop :=
  (∀ x : Addr, decode (3#4 ++ x) = .add x) ∧
  ∀ (x : Addr) (s : State),
    let m := Memory.read s.mem x.toNat
    (s.ac.toNat + m.toNat ≤ 65535 →
      ∃ t, exec (.add x) s = .next t ∧ t.ac.toNat = s.ac.toNat + m.toNat ∧ t = { s with ac := t.ac }) ∧
    (65535 < s.ac.toNat + m.toNat → HaltsWith (exec (.add x) s) .arithmeticOverflow s)

/-- R99: SUBT X sets AC to the integer difference when it is not negative; otherwise it raises
`ArithmeticUnderflowError` and AC is unchanged. -/
def Obligations.SubtIsExactOrUnderflows : Prop :=
  (∀ x : Addr, decode (4#4 ++ x) = .subt x) ∧
  ∀ (x : Addr) (s : State),
    let m := Memory.read s.mem x.toNat
    (m.toNat ≤ s.ac.toNat →
      ∃ t, exec (.subt x) s = .next t ∧ t.ac.toNat = s.ac.toNat - m.toNat ∧ t = { s with ac := t.ac }) ∧
    (s.ac.toNat < m.toNat → HaltsWith (exec (.subt x) s) .arithmeticUnderflow s)

/-- CLEAR sets AC to 0 and changes nothing else (section CLEAR of spec/42_memory_arith.md). That the operand bits are
ignored is the spec's decision D5 (log 5). -/
def Obligations.ClearZeroesAc : Prop :=
  (∀ g : BitVec 12, decode (10#4 ++ g) = .clear g) ∧
  ∀ (g : BitVec 12) (s : State), exec (.clear g) s = .next { s with ac := 0 }

/-- ADDI X adds the word the pointer at X points at, exactly or with `ArithmeticOverflowError`; a pointer above 4095 raises
`RangeError(ADDR)`, whatever the sum would be (section ADDI of spec/42_memory_arith.md). The address error is the spec's
decision D4 (log 4). -/
def Obligations.AddiAddsThroughPointer : Prop :=
  (∀ x : Addr, decode (11#4 ++ x) = .addi x) ∧
  ∀ (x : Addr) (s : State),
    let p := (Memory.read s.mem x.toNat).toNat
    let m := Memory.read s.mem p
    (p ≤ 4095 → s.ac.toNat + m.toNat ≤ 65535 →
      ∃ t, exec (.addi x) s = .next t ∧ t.ac.toNat = s.ac.toNat + m.toNat ∧ t = { s with ac := t.ac }) ∧
    (p ≤ 4095 → 65535 < s.ac.toNat + m.toNat → HaltsWith (exec (.addi x) s) .arithmeticOverflow s) ∧
    (4095 < p → HaltsWith (exec (.addi x) s) (.rangeError .addr) s)

/-- LOADI X sets AC to the word the pointer at X points at; a pointer above 4095 raises `RangeError(ADDR)` (section LOADI
of spec/42_memory_arith.md). The address error is the spec's decision D4 (log 4). -/
def Obligations.LoadiLoadsThroughPointer : Prop :=
  (∀ x : Addr, decode (13#4 ++ x) = .loadi x) ∧
  ∀ (x : Addr) (s : State),
    let p := (Memory.read s.mem x.toNat).toNat
    (p ≤ 4095 → exec (.loadi x) s = .next { s with ac := Memory.read s.mem p }) ∧
    (4095 < p → HaltsWith (exec (.loadi x) s) (.rangeError .addr) s)

/-- STOREI X writes AC to the cell the pointer at X points at and nowhere else; a pointer above 4095 raises
`RangeError(ADDR)` and no cell is written (section STOREI of spec/42_memory_arith.md). The address error is the spec's
decision D4 (log 4). -/
def Obligations.StoreiStoresThroughPointer : Prop :=
  (∀ x : Addr, decode (14#4 ++ x) = .storei x) ∧
  ∀ (x : Addr) (s : State),
    let p := (Memory.read s.mem x.toNat).toNat
    (p ≤ 4095 → ∃ t, exec (.storei x) s = .next t ∧ t = { s with mem := t.mem } ∧
      (Memory.wf s.mem = true → Memory.read t.mem p = s.ac) ∧
      ∀ a, a ≠ p → Memory.read t.mem a = Memory.read s.mem a) ∧
    (4095 < p → HaltsWith (exec (.storei x) s) (.rangeError .addr) s)

/-! ## Control transfer -/

/-- R90: JNS X writes PC (the return address) to the cell at X and continues at X + 1; with X = 4095 the write stands, PC is
kept and `RangeError(PC)` is raised. Every other cell, AC and the rest of the state are unchanged in both cases, and AC is not
read: with another AC the answer is the same but for AC. -/
def Obligations.JnsStoresReturnAddress : Prop :=
  (∀ x : Addr, decode (0#4 ++ x) = .jns x) ∧
  ∀ (x : Addr) (s : State), ∃ m : Memory,
    (Memory.wf s.mem = true → (Memory.read m x.toNat).toNat = s.pc.toNat) ∧
    (∀ a, a ≠ x.toNat → Memory.read m a = Memory.read s.mem a) ∧
    (x ≠ 4095 → ∃ t, exec (.jns x) s = .next t ∧ t.pc.toNat = x.toNat + 1 ∧ t = { s with mem := m, pc := t.pc }) ∧
    (x = 4095 → HaltsWith (exec (.jns x) s) (.rangeError (.reg .pc)) { s with mem := m }) ∧
    ∀ (v : Word) (t : State), exec (.jns x) s = .next t → exec (.jns x) { s with ac := v } = .next { t with ac := v }

/-- SKIPCOND (section SKIPCOND of spec/41_control.md): condition 0 skips when `AC >= 32768`, 1 when `AC = 0`, 2 when
`1 <= AC <= 32767`; 3 raises `InvalidConditionError`; a skip at PC = 4095 raises `RangeError(PC)`. That bits 9..0 are
ignored is the spec's decision D5 (log 5). -/
def Obligations.SkipcondSkipsByAccumulator : Prop :=
  (∀ (c : BitVec 2) (g : BitVec 10), decode (8#4 ++ (c ++ g : BitVec 12)) = .skipcond c g) ∧
  ∀ (c : BitVec 2) (g : BitVec 10) (s : State),
    let a := s.ac.toNat
    let take := (c = 0 ∧ 32768 ≤ a) ∨ (c = 1 ∧ a = 0) ∨ (c = 2 ∧ 1 ≤ a ∧ a ≤ 32767)
    (c ≠ 3 → ¬ take → exec (.skipcond c g) s = .next s) ∧
    (take → s.pc ≠ 4095 →
      ∃ t, exec (.skipcond c g) s = .next t ∧ t.pc.toNat = s.pc.toNat + 1 ∧ t = { s with pc := t.pc }) ∧
    (take → s.pc = 4095 → HaltsWith (exec (.skipcond c g) s) (.rangeError (.reg .pc)) s) ∧
    (c = 3 → HaltsWith (exec (.skipcond c g) s) (.invalidCondition 3) s)

/-- R92: JUMP X continues at X and changes nothing else. -/
def Obligations.JumpSetsPc : Prop :=
  (∀ x : Addr, decode (9#4 ++ x) = .jump x) ∧
  ∀ (x : Addr) (s : State), exec (.jump x) s = .next { s with pc := x }

/-- R93: JUMPI X continues at the address in the word at X; a word above 4095 raises `RangeError(PC)` and PC is kept. AC
is neither read nor written. -/
def Obligations.JumpiJumpsThroughPointer : Prop :=
  (∀ x : Addr, decode (12#4 ++ x) = .jumpi x) ∧
  ∀ (x : Addr) (s : State),
    let t := Memory.read s.mem x.toNat
    (t.toNat ≤ 4095 → ∃ u, exec (.jumpi x) s = .next u ∧ u.pc.toNat = t.toNat ∧ u = { s with pc := u.pc }) ∧
    (4095 < t.toNat → HaltsWith (exec (.jumpi x) s) (.rangeError (.reg .pc)) s)

/-- A word with opcode 15 (section 4 of spec/30_encoding.md): the fetch completes, then `UnknownOpcodeError(15)` halts the
engine. This is the whole effect the spec gives the row: its own effect is to take the error. The record kept as state is
D12 (log 8), MBR's value after the fetch D3 (log 2). -/
def Obligations.UnknownOpcodeHalts : Prop :=
  (∀ g : BitVec 12, decode (15#4 ++ g) = .illegal g) ∧
  (∀ (g : BitVec 12) (s : State), exec (.illegal g) s = .next (s.raised (.unknownOpcode 15))) ∧
  (∀ s : State, s.runState = .running → s.pc ≠ 4095 → opcodeOf (Memory.read s.mem s.pc.toNat) = 15 →
    HaltsWith (step s) (.unknownOpcode 15) s.fetched)

/-- The subroutine convention of spec/41_control.md R89 and R93: after JNS S, and while the first word of the subroutine
still holds what JNS stored, JUMPI S continues at the return address, from any other state of the machine. -/
def Obligations.JumpiReturnsFromJns : Prop :=
  ∀ (x : Addr) (s t u : State), Memory.wf s.mem = true → exec (.jns x) s = .next t →
    Memory.read u.mem x.toNat = Memory.read t.mem x.toNat → exec (.jumpi x) u = .next { u with pc := s.pc }

/-! ## Input, output, halt -/

/-- INPUT (section INPUT of spec/43_io_halt.md): the head of the queue goes to AC; with an empty queue PC goes back by one,
the engine pauses and one `InputRequested` is emitted. PC is not 0 in an execute phase, which the fetch has advanced it for
(R76; log 21). That the operand bits are ignored is D5 (log 5). -/
def Obligations.InputTakesHeadOrPauses : Prop :=
  (∀ g : BitVec 12, decode (5#4 ++ g) = .input g) ∧
  ∀ (g : BitVec 12) (s : State),
    (∀ v rest, s.inQ = v :: rest → exec (.input g) s = .next { s with ac := v, inQ := rest }) ∧
    (s.inQ = [] → s.pc ≠ 0 → ∃ t, exec (.input g) s = .next t ∧ t.pc.toNat + 1 = s.pc.toNat ∧
      t = { s with pc := t.pc, runState := .paused, events := s.events ++ [.inputRequested] })

/-- OUTPUT (section OUTPUT of spec/43_io_halt.md): AC is appended to the log and `Output(AC)` is emitted; the log has no
limit (D14, log 13); the operand bits are ignored (D5, log 5). -/
def Obligations.OutputAppendsAc : Prop :=
  (∀ g : BitVec 12, decode (6#4 ++ g) = .output g) ∧
  ∀ (g : BitVec 12) (s : State), exec (.output g) s =
    .next { s with outLog := s.outLog ++ [s.ac], events := s.events ++ [.output s.ac] }

/-- HALT (section HALT of spec/43_io_halt.md): Halted and one `ProgramEnd`; the cause kept as state is D12 (log 8); the
operand bits are ignored (D5, log 5). -/
def Obligations.HaltEndsRun : Prop :=
  (∀ g : BitVec 12, decode (7#4 ++ g) = .halt g) ∧
  ∀ (g : BitVec 12) (s : State), ∃ t, exec (.halt g) s = .next t ∧ t.outcome = some .completed ∧
    t = { s with runState := .halted, haltCause := .haltInstr, events := s.events ++ [.programEnd] }

/-! ## The step -/

/-- A step runs the decoded instruction: from Running, below 4095, a step is the execute phase of the word at PC with the
fetch's four writes made first. MBR's value is the spec's decision D3 (log 2). -/
def Obligations.StepRunsDecodedInstruction : Prop :=
  ∀ (s : State) (w : Word) (i : Instr), s.runState = .running → s.pc ≠ 4095 → Memory.read s.mem s.pc.toNat = w →
    decode w = i → step s = exec i { s with mar := s.pc, mbr := w, ir := w, pc := s.pc + 1 }

/-- The instruction at 4095 is never executed: its fetch raises `RangeError(PC)`, with MAR, MBR and IR written and PC kept,
even when the word's opcode is 15. MBR's value is D3 (log 2). -/
def Obligations.FetchAtLastAddressFails : Prop :=
  ∀ (s : State) (w : Word), s.runState = .running → s.pc = 4095 → Memory.read s.mem 4095 = w →
    HaltsWith (step s) (.rangeError (.reg .pc)) { s with mar := 4095, mbr := w, ir := w }

/-- A step is refused exactly outside Running, and then no state changes (the refusal is the spec's decision D6, log 6). -/
def Obligations.StepRefusedExactlyOutsideRunning : Prop :=
  ∀ s : State, (s.runState ≠ .running ↔ step s = .refused .stepNotRunning) ∧
    (s.runState ≠ .running → ∀ cfg, perform cfg .step s = (s, .refused .stepNotRunning)) ∧
    (s.runState = .running → ∃ t, step s = .next t)

/-- Every instruction, with every operand, answers a next state from every state: the engine has no fault and no
instruction without a meaning. -/
def Obligations.EveryInstructionAnswersNextState : Prop :=
  ∀ (i : Instr) (s : State), ∃ t, exec i s = .next t

/-- IR is written only by the fetch, with the word read at the fetch address; after a step it holds the word of the
instruction that step executed, one that paused or halted the engine included (section 1 of spec/10_state.md): the execute
phase of that word, from the state after the fetch, is what the step answers. The other writes of that state are the fetch's
(section 2 of spec/40_engine.md), MBR's value among them the spec's decision D3 (log 2). -/
def Obligations.IrHoldsExecutedWord : Prop :=
  (∀ (i : Instr) (s t : State), exec i s = .next t → t.ir = s.ir) ∧
  (∀ s t : State, step s = .next t → t.ir = Memory.read s.mem s.pc.toNat ∧
    (s.pc ≠ 4095 → exec (decode t.ir) s.fetched = .next t))

/-- What a step answers does not depend on what MAR, MBR and IR held before it: no rule of the engine reads them but the
fetch, which writes them first (R17, R18, R74). -/
def Obligations.StepIgnoresTransientRegisters : Prop :=
  ∀ (s : State) (a : Addr) (b c : Word), step { s with mar := a, mbr := b, ir := c } = step s

/-- The event stream and the output log are never read (R27): with other pasts of both, a step does the same and extends
them by the same. -/
def Obligations.EventStreamAndLogAreNeverRead : Prop :=
  ∀ (s t : State) (es : List Event) (log : List Word), step s = .next t →
    ∃ newEvents newOutput, t.events = s.events ++ newEvents ∧ t.outLog = s.outLog ++ newOutput ∧
      step { s with events := es, outLog := log } =
        .next { t with events := es ++ newEvents, outLog := log ++ newOutput }

/-- The instructions that write AC are LOAD, ADD, SUBT, INPUT with a queued value, CLEAR, ADDI and LOADI; JNS, HALT, JUMP
and JUMPI do not read it either (section 1 of spec/10_state.md). -/
def Obligations.AccumulatorWritersAndNonReaders : Prop :=
  (∀ (i : Instr) (s t : State), exec i s = .next t →
    i.mnemonic ∉ ["LOAD", "ADD", "SUBT", "CLEAR", "ADDI", "LOADI"] → (i.mnemonic = "INPUT" → s.inQ = []) →
    t.ac = s.ac) ∧
  (∀ (i : Instr) (s t : State) (v : Word), i.mnemonic ∈ ["JNS", "HALT", "JUMP", "JUMPI"] → exec i s = .next t →
    exec i { s with ac := v } = .next { t with ac := v })

/-- The step's errors are those spec/60_exceptions.md R111 lists, in its order: a step records `e` exactly when the list
gives `e`, and otherwise leaves the record as it was. Errors kept as state are D12 (log 8), the address errors D4 (log 4). -/
def Obligations.StepRaisesExactlyListedErrors : Prop :=
  ∀ s t : State, step s = .next t →
    (∀ e, s.stepError = some e → t.err = some e ∧ t.haltCause = .fatal) ∧
    (s.stepError = none → t.err = s.err ∧ (t.haltCause = s.haltCause ∨ t.haltCause = .haltInstr))

/-- The step column of the transition table (section 4 of spec/40_engine.md): a step ends in Halted on a fatal error or on
HALT, in Paused on INPUT with an empty queue, and in Running otherwise. -/
def Obligations.StepFollowsTransitionTable : Prop :=
  ∀ s t : State, step s = .next t → t.runState = s.stepRunState

/-- A step emits the events of spec/40_engine.md R79, at most one. The moment of delivery is D18 (log 9). -/
def Obligations.StepEmitsAtMostOneEvent : Prop :=
  ∀ s t : State, step s = .next t → t.events = s.events ++ s.stepEvents ∧ s.stepEvents.length ≤ 1

/-- What a failing step leaves (section 2 of spec/60_exceptions.md, table of R110): the fetch's writes, PC one further
(kept at 4095), AC, the queue and the log unchanged, and no cell changed but 4095 under JNS 4095, whose store stands: the cell
holds the return address. MBR is D3 (log 2). -/
def Obligations.FailingStepKeepsEarlierWrites : Prop :=
  ∀ s t : State, step s = .next t → s.stepError ≠ none →
    t.ac = s.ac ∧ t.inQ = s.inQ ∧ t.outLog = s.outLog ∧ t.mar = s.pc ∧
    t.ir = Memory.read s.mem s.pc.toNat ∧ t.mbr = t.ir ∧ t.pc = (if s.pc = 4095 then 4095 else s.pc + 1) ∧
    (∀ a, a ≠ 4095 → Memory.read t.mem a = Memory.read s.mem a) ∧
    ((s.pc = 4095 ∨ decode t.ir ≠ .jns 4095) → Memory.read t.mem 4095 = Memory.read s.mem 4095) ∧
    (s.pc ≠ 4095 → decode t.ir = .jns 4095 → Memory.wf s.mem = true → (Memory.read t.mem 4095).toNat = s.pc.toNat + 1)

/-- Self-modifying code (section 6 of spec/20_memory.md, R47, R127): a word that STORE, or STOREI through its
pointer, stores at the next address is what the next step executes. JNS stores too, but continues past the word it stores. -/
def Obligations.StoredWordIsExecutedNext : Prop :=
  ∀ (s : State), s.runState = .running → Memory.wf s.mem = true → s.pc ≠ 4095 → s.pc + 1 ≠ 4095 →
    (decode (Memory.read s.mem s.pc.toNat) = .store (s.pc + 1) ∨
      ∃ x, decode (Memory.read s.mem s.pc.toNat) = .storei x ∧
        (Memory.read s.mem x.toNat).toNat = s.pc.toNat + 1) →
    ∃ t, step s = .next t ∧ t.pc = s.pc + 1 ∧ step t = exec (decode s.ac) t.fetched

/-! ## Frames -/

/-- The frame of LOAD, ADD, SUBT, CLEAR, ADDI, LOADI: AC is their destination; every other register, every cell, the queue
and the log are unchanged, and so is the run control unless a fatal error was taken, when AC is unchanged too. -/
def Obligations.AccumulatorInstructionsFrame : Prop :=
  ∀ (i : Instr) (s t : State), i.mnemonic ∈ ["LOAD", "ADD", "SUBT", "CLEAR", "ADDI", "LOADI"] → exec i s = .next t →
    t.pc = s.pc ∧ t.ir = s.ir ∧ t.mbr = s.mbr ∧ t.mar = s.mar ∧ SameMemory s t ∧ t.inQ = s.inQ ∧ t.outLog = s.outLog ∧
    (SameControl s t ∨ (ControlRaised s t ∧ t.ac = s.ac))

/-- The frame of the instructions that store, JNS, STORE and STOREI: every cell but the one `storeAddr` gives is unchanged
(a pointer above 4095 names none); every register is unchanged but PC, which only JNS writes; the queue and the log are
unchanged; the run control is unchanged unless a fatal error was taken. -/
def Obligations.StoringInstructionsFrame : Prop :=
  ∀ (i : Instr) (s t : State), i.mnemonic ∈ ["JNS", "STORE", "STOREI"] → exec i s = .next t →
    (∃ a, storeAddr i s = some a ∧ ∀ c, c ≠ a → Memory.read t.mem c = Memory.read s.mem c) ∧
    t.ac = s.ac ∧ t.ir = s.ir ∧ t.mbr = s.mbr ∧ t.mar = s.mar ∧ (i.mnemonic ≠ "JNS" → t.pc = s.pc) ∧
    t.inQ = s.inQ ∧ t.outLog = s.outLog ∧ (SameControl s t ∨ ControlRaised s t)

/-- The frame of SKIPCOND, JUMP and JUMPI: only PC may change; every other register, every cell, the queue and the log are
unchanged, and the run control is unchanged unless a fatal error was taken. -/
def Obligations.ControlTransferFrame : Prop :=
  ∀ (i : Instr) (s t : State), i.mnemonic ∈ ["SKIPCOND", "JUMP", "JUMPI"] → exec i s = .next t →
    t.ac = s.ac ∧ t.ir = s.ir ∧ t.mbr = s.mbr ∧ t.mar = s.mar ∧ SameMemory s t ∧ t.inQ = s.inQ ∧ t.outLog = s.outLog ∧
    (SameControl s t ∨ (ControlRaised s t ∧ t.pc = s.pc))

/-- The frame of INPUT, OUTPUT, HALT and opcode 15: no cell changes; no register changes but AC and PC, and those only under
INPUT; the queue changes only under INPUT, the log only under OUTPUT; OUTPUT leaves run state, cause and record alone. -/
def Obligations.InputOutputHaltFrame : Prop :=
  ∀ (i : Instr) (s t : State), i.mnemonic ∈ ["INPUT", "OUTPUT", "HALT", "illegal__opcode_15"] → exec i s = .next t →
    SameMemory s t ∧ t.ir = s.ir ∧ t.mbr = s.mbr ∧ t.mar = s.mar ∧
    (i.mnemonic ≠ "INPUT" → t.ac = s.ac ∧ t.pc = s.pc ∧ t.inQ = s.inQ) ∧
    (i.mnemonic ≠ "OUTPUT" → t.outLog = s.outLog) ∧
    (i.mnemonic = "OUTPUT" → t.runState = s.runState ∧ t.haltCause = s.haltCause ∧ t.err = s.err) ∧
    (i.mnemonic = "HALT" → t.err = s.err) ∧
    (i.mnemonic = "illegal__opcode_15" → ControlRaised s t) ∧
    (i.mnemonic = "INPUT" → s.inQ ≠ [] → SameControl s t ∧ t.pc = s.pc) ∧
    (i.mnemonic = "INPUT" → s.inQ = [] → s.pc ≠ 0 →
      t.ac = s.ac ∧ t.inQ = s.inQ ∧ t.haltCause = s.haltCause ∧ t.err = s.err)

/-- Memory is written only by JNS, STORE and STOREI, at the cell `storeAddr` computes from the state before the step
(section 1 of spec/20_memory.md): a step leaves every other cell as it was. -/
def Obligations.StepWritesOnlyStoreAddress : Prop :=
  ∀ s t : State, step s = .next t → ∀ a,
    (s.pc = 4095 ∨ storeAddr (decode (Memory.read s.mem s.pc.toNat)) s ≠ some a) →
    Memory.read t.mem a = Memory.read s.mem a

/-- The input queue is first in, first out: a step leaves it alone or, under INPUT, moves its head to AC; of the other
commands only set input and load touch it, and set input appends at the tail (section 5 of spec/10_state.md; the load's
effect is the open parameter D10, log 7; acceptance in every state is D7, log 10). -/
def Obligations.InputQueueIsFirstInFirstOut : Prop :=
  (∀ s t : State, step s = .next t → t.inQ = s.inQ ∨ (opcodeOf t.ir = 5 ∧ s.inQ = t.ac :: t.inQ)) ∧
  (∀ (s t : State) (values : List Int), setInput values s = .next t → ∃ vs : List Word,
    t.inQ = s.inQ ++ vs ∧ vs.map (fun w => (w.toNat : Int)) = values) ∧
  (∀ (cfg : Config) (c : Command) (s : State), c = .resume ∨ c = .stop ∨ c = .inspect ∨ c = .getOutput →
    (perform cfg c s).1.inQ = s.inQ)

/-- The output log only grows, by AC and only under OUTPUT; of the other commands only load touches it, and empties it
(section 5 of spec/10_state.md; no capacity is D14, log 13). -/
def Obligations.OutputLogOnlyGrowsByOutput : Prop :=
  (∀ s t : State, step s = .next t → t.outLog = s.outLog ∨ (opcodeOf t.ir = 6 ∧ t.outLog = s.outLog ++ [s.ac])) ∧
  (∀ (cfg : Config) (s t : State) (image : List Int), load cfg image s = .next t → t.outLog = []) ∧
  (∀ (cfg : Config) (c : Command) (s : State), c ≠ .step → (∀ image, c ≠ .load image) →
    (perform cfg c s).1.outLog = s.outLog)

/-! ## Host commands -/

/-- The load command (sections 3 of spec/40_engine.md and 1 of spec/70_reset_and_hazards.md): an image within both bounds is
accepted in every state and resets memory, registers, log and run; the event stream goes on. Clearing the record and the
cause is D12 (log 8), the queue the open parameter D10 (log 7). -/
def Obligations.LoadResetsEngine : Prop :=
  ∀ (cfg : Config) (image : List Int) (s : State), image.length ≤ 4096 → (∀ v ∈ image, 0 ≤ v ∧ v ≤ 65535) →
    ∃ t, load cfg image s = .next t ∧
      (∀ a, ((Memory.read t.mem a).toNat : Int) = image.getD a 0) ∧ (∀ r, t.reg r = 0) ∧ t.outLog = [] ∧
      t.runState = .running ∧ t.haltCause = .none ∧ t.err = none ∧ t.events = s.events ∧
      (cfg.inputQueueOnLoad = .keep → t.inQ = s.inQ) ∧ (cfg.inputQueueOnLoad = .clear → t.inQ = [])

/-- An image longer than 4096 words, or with a word outside 0..65535, is refused and the state is unchanged (the spec's
decision D2, log 12). -/
def Obligations.LoadRefusesBadImage : Prop :=
  ∀ (cfg : Config) (image : List Int) (s : State), (4096 < image.length ∨ ∃ v ∈ image, v < 0 ∨ 65535 < v) →
    ∃ why, load cfg image s = .refused why ∧ perform cfg (.load image) s = (s, .refused why)

/-- The set-input command: the whole batch is appended in order, in every state, and nothing else changes; a value outside
0..65535 refuses the whole batch and changes nothing (the spec's decision D7, log 10). -/
def Obligations.SetInputAppendsWholeBatchOrNothing : Prop :=
  ∀ (cfg : Config) (values : List Int) (s : State),
    ((∀ v ∈ values, 0 ≤ v ∧ v ≤ 65535) → ∃ t, setInput values s = .next t ∧
      (∃ vs : List Word, t.inQ = s.inQ ++ vs ∧ vs.map (fun w => (w.toNat : Int)) = values) ∧
      t = { s with inQ := t.inQ }) ∧
    ((∃ v ∈ values, v < 0 ∨ 65535 < v) →
      perform cfg (.setInput values) s = (s, .refused .inputValueOutOfRange))

/-- The resume and stop columns of the transition table: resume acts only in Paused (D8, log 10), stop acts outside Halted
and changes only the run state and the cause (D9, log 10). -/
def Obligations.ResumeAndStopFollowTransitionTable : Prop :=
  ∀ s : State,
    (s.runState = .paused → resume s = { s with runState := .running }) ∧
    (s.runState ≠ .paused → resume s = s) ∧
    (s.runState ≠ .halted → stop s = { s with runState := .halted, haltCause := .stopped } ∧
      (stop s).outcome = some .stopped) ∧
    (s.runState = .halted → stop s = s)

/-- Halted is left only by load: every other command leaves a halted engine as it is, but for input queued after the end
(sections 4 of spec/40_engine.md and 4 of spec/60_exceptions.md; the refusals and no-effect cells are D6 to D9, logs 6
and 10). -/
def Obligations.HaltedIsLeftOnlyByLoad : Prop :=
  ∀ (cfg : Config) (c : Command) (s : State), s.runState = .halted → (∀ image, c ≠ .load image) →
    (perform cfg c s).1 = { s with inQ := (perform cfg c s).1.inQ } ∧
    ((∀ values, c ≠ .setInput values) → (perform cfg c s).1 = s)

/-- Inspection returns the snapshot of spec/10_state.md section 6, get output the log, and neither changes the state; the
running flag is true exactly in Running (the spec's decision D13, log 14). -/
def Obligations.InspectionReturnsSnapshotUnchanged : Prop :=
  ∀ (cfg : Config) (s : State), ∃ snap : Snapshot,
    perform cfg .inspect s = (s, .snapshot snap) ∧ perform cfg .getOutput s = (s, .output s.outLog) ∧
    snap.ac = s.ac ∧ snap.pc = s.pc ∧ snap.ir = s.ir ∧ snap.mar = s.mar ∧ snap.mbr = s.mbr ∧
    snap.outLog = s.outLog ∧ (snap.running = true ↔ s.runState = .running) ∧ snap.memory.length = 4096 ∧
    ∀ a, a ≤ 4095 → snap.memory[a]? = some (Memory.read s.mem a)

/-- The pause and its return (section 4 of spec/60_exceptions.md, R115, R128): from any paused state that meets the
invariant, queuing at least one value and resuming makes the next step execute the same INPUT: AC takes the first value of
the queue and PC moves past the INPUT. -/
def Obligations.PausedInputCompletesAfterResume : Prop :=
  ∀ (cfg : Config) (s : State) (v : Int) (rest : List Int), s.Inv → s.runState = .paused →
    (∀ x ∈ v :: rest, 0 ≤ x ∧ x ≤ 65535) →
    ∃ t, step (performAll cfg [.setInput (v :: rest), .resume] s) = .next t ∧
      (t.ac :: t.inQ).map (fun w => (w.toNat : Int)) = s.inQ.map (fun w => (w.toNat : Int)) ++ v :: rest ∧
      t.pc.toNat = s.pc.toNat + 1 ∧
      t.runState = .running ∧ t.mem = s.mem ∧ t.outLog = s.outLog ∧ t.events = s.events

/-! ## The assembler -/

/-- Every assembled program is one the load command accepts, its labels are distinct and stand for addresses of its own
words (section 5 of spec/30_encoding.md; the policies are the spec's decision D19, logs 17 to 20). -/
def Obligations.AssembledProgramLoads : Prop :=
  ∀ (cfg : Config) (source : List Char) (words : List Word) (table : Assembler.SymbolTable) (s : State),
    Assembler.assemble cfg source = .ok (words, table) →
    words.length ≤ 4096 ∧ (∃ t, load cfg (Assembler.imageOf words) s = .next t) ∧
    (table.map (·.1)).Nodup ∧ ∀ e ∈ table, e.2 < words.length

/-- The word of an assembled line is the raw literal for `dec` and `hex` and otherwise a well-formed instruction of the
line's mnemonic: its operand bits are where execution reads them (section 5 of spec/30_encoding.md, C1). -/
def Obligations.AssembledInstructionIsWellFormed : Prop :=
  ∀ (radix : AddrLiteralRadix) (table : Assembler.SymbolTable) (line mnemonic : List Char) (operands : List (List Char))
    (row : Assembler.MnemonicRow) (w : Word),
    (∀ e ∈ table, e.2 ≤ 4095) →
    Assembler.withoutLabel table (Assembler.tokens line) = mnemonic :: operands →
    Assembler.findMnemonic mnemonic = some row → Assembler.assembleLine radix table line = .ok w →
    ∃ v, Assembler.operandValue radix table row.operand operands = .ok v ∧
      ((row.operand = .decimal ∨ row.operand = .hexadecimal) → w.toNat = v) ∧
      (row.operand ≠ .decimal → row.operand ≠ .hexadecimal →
        (decode w).wellFormed = true ∧ w.toNat = row.opcode * 4096 + v ∧ v ≤ 4095)
end

