-- ==== Sys2Proof/Laws/Decode.lean ====
section
/-! SUPPORT. The fields of a word (spec/30_encoding.md R50, R51): a word is its opcode before its operand, and each field of
a word put together so is the one it was put together from. -/

namespace Sys2Proof

/-! ## Fields of an append, at any width -/

theorem extract_high_append {m n : Nat} (a : BitVec m) (b : BitVec n) : (a ++ b).extractLsb' n m = a := by
  apply BitVec.eq_of_getLsbD_eq
  intro i hi
  simp [BitVec.getLsbD_append, hi]

theorem extract_low_append {m n : Nat} (a : BitVec m) (b : BitVec n) : (a ++ b).extractLsb' 0 n = b := by
  apply BitVec.eq_of_getLsbD_eq
  intro i hi
  simp [BitVec.getLsbD_append, hi]

theorem append_extract {m n : Nat} (w : BitVec (m + n)) : w.extractLsb' n m ++ w.extractLsb' 0 n = w := by
  simp

/-! ## The machine's fields -/

@[simp] theorem opcodeOf_append (op : BitVec 4) (x : Addr) : opcodeOf (op ++ x) = op := extract_high_append op x

@[simp] theorem operandOf_append (op : BitVec 4) (x : Addr) : operandOf (op ++ x) = x := extract_low_append op x

@[simp] theorem conditionOf_append (c : BitVec 2) (g : BitVec 10) : conditionOf (c ++ g) = c := extract_high_append c g

@[simp] theorem belowCondition_append (c : BitVec 2) (g : BitVec 10) : belowCondition (c ++ g) = g :=
  extract_low_append c g

theorem opcodeOf_append_operandOf (w : Word) : (opcodeOf w ++ operandOf w : Word) = w :=
  append_extract (m := 4) (n := 12) w

theorem conditionOf_append_belowCondition (x : Addr) : (conditionOf x ++ belowCondition x : Addr) = x :=
  
  append_extract (m := 2) (n := 10) x

/-- An opcode is one of sixteen. -/
theorem opcode_cases (op : BitVec 4) :
    op = 0 ∨ op = 1 ∨ op = 2 ∨ op = 3 ∨ op = 4 ∨ op = 5 ∨ op = 6 ∨ op = 7 ∨
    op = 8 ∨ op = 9 ∨ op = 10 ∨ op = 11 ∨ op = 12 ∨ op = 13 ∨ op = 14 ∨ op = 15 := by
  revert op
  decide

/-- The decoder on a word given as its two fields. -/
theorem decode_append (op : BitVec 4) (x : Addr) : decode (op ++ x) = instrOf op.toNat x := by
  unfold decode
  rw [opcodeOf_append, operandOf_append]

end Sys2Proof
end

