-- ==== Sys2Proof/Laws/Memory.lean ====
section
/-! SUPPORT. The memory: a read after a write, the canonical form every operation keeps, and that two memories in canonical
form with equal cells are equal (spec/20_memory.md R33, R35, R42). -/

namespace Sys2Proof.Machine

@[simp] theorem Memory.read_nil (a : Nat) : Memory.read [] a = unlistedCell := rfl

@[simp] theorem Memory.read_cons (b : Nat) (v : Word) (m : Memory) (a : Nat) :
    Memory.read ((b, v) :: m) a = if a = b then v else Memory.read m a := rfl

theorem Memory.wfFrom_cons {lo a : Nat} {v : Word} {m : Memory} :
    Memory.wfFrom lo ((a, v) :: m) = true ↔
      lo ≤ a ∧ a < memSize ∧ v ≠ unlistedCell ∧ Memory.wfFrom (a + 1) m = true := by
  simp [Memory.wfFrom, and_assoc]

/-- The form from a higher address on is the form from a lower one. -/
theorem Memory.wfFrom_mono {m : Memory} {lo lo' : Nat} (hle : lo' ≤ lo) (h : Memory.wfFrom lo m = true) :
    Memory.wfFrom lo' m = true := by
  cases m with
  | nil => rfl
  | cons c m =>
    obtain ⟨h1, h2, h3, h4⟩ := Memory.wfFrom_cons.mp h
    exact Memory.wfFrom_cons.mpr ⟨hle.trans h1, h2, h3, h4⟩

/-- Below where the listed cells begin, every cell is unlisted. -/
theorem Memory.read_below {m : Memory} {lo a : Nat} (h : Memory.wfFrom lo m = true) (ha : a < lo) :
    Memory.read m a = unlistedCell := by
  induction m generalizing lo with
  | nil => rfl
  | cons c m ih =>
    obtain ⟨b, u⟩ := c
    obtain ⟨h1, -, -, h4⟩ := Memory.wfFrom_cons.mp h
    simp only [Memory.read_cons]
    rw [if_neg (by omega), ih h4 (by omega)]

/-- Above the address space no cell is listed. -/
theorem Memory.read_above {m : Memory} {lo a : Nat} (h : Memory.wfFrom lo m = true) (ha : memSize ≤ a) :
    Memory.read m a = unlistedCell := by
  induction m generalizing lo with
  | nil => rfl
  | cons c m ih =>
    obtain ⟨b, u⟩ := c
    obtain ⟨-, h2, -, h4⟩ := Memory.wfFrom_cons.mp h
    simp only [Memory.read_cons]
    rw [if_neg (by omega), ih h4]

theorem Memory.read_listed_other {a c : Nat} {v : Word} {m : Memory} (h : c ≠ a) :
    Memory.read (Memory.listed a v m) c = Memory.read m c := by
  unfold Memory.listed
  split <;> simp [h]

/-- The cell put in front reads as the word put there, where the rest lists only higher cells. -/
theorem Memory.read_listed_same {a : Nat} {v : Word} {m : Memory} (h : Memory.wfFrom (a + 1) m = true) :
    Memory.read (Memory.listed a v m) a = v := by
  unfold Memory.listed
  split
  · rename_i hv
    rw [hv, Memory.read_below h (Nat.lt_succ_self a)]
  · simp

theorem Memory.wfFrom_listed {lo a : Nat} {v : Word} {m : Memory} (hlo : lo ≤ a) (ha : a < memSize)
    (h : Memory.wfFrom (a + 1) m = true) : Memory.wfFrom lo (Memory.listed a v m) = true := by
  unfold Memory.listed
  split
  · exact Memory.wfFrom_mono (by omega) h
  · rename_i hv
    exact Memory.wfFrom_cons.mpr ⟨hlo, ha, hv, h⟩

/-- A write leaves every other cell alone. -/
theorem Memory.read_write_other {m : Memory} {a c : Nat} {v : Word} (h : c ≠ a) :
    Memory.read (Memory.write m a v) c = Memory.read m c := by
  induction m with
  | nil => exact Memory.read_listed_other h
  | cons b m ih =>
    obtain ⟨b, u⟩ := b
    simp only [Memory.write]
    split
    · exact Memory.read_listed_other h
    · split
      · rename_i hab
        subst hab
        rw [Memory.read_listed_other h]
        simp [h]
      · simp [ih]

/-- A read after a write to the same cell gives the word written. -/
theorem Memory.read_write_same_from {m : Memory} {lo a : Nat} {v : Word} (h : Memory.wfFrom lo m = true) :
    Memory.read (Memory.write m a v) a = v := by
  induction m generalizing lo with
  | nil => exact Memory.read_listed_same rfl
  | cons b m ih =>
    obtain ⟨b, u⟩ := b
    obtain ⟨-, h2, h3, h4⟩ := Memory.wfFrom_cons.mp h
    simp only [Memory.write]
    split
    · rename_i hab
      exact Memory.read_listed_same (Memory.wfFrom_cons.mpr ⟨by omega, h2, h3, h4⟩)
    · split
      · rename_i hab
        subst hab
        exact Memory.read_listed_same h4
      · rename_i hne
        simp only [Memory.read_cons]
        rw [if_neg hne, ih h4]

theorem Memory.read_write_same {m : Memory} {a : Nat} {v : Word} (h : Memory.wf m = true) :
    Memory.read (Memory.write m a v) a = v :=
  Memory.read_write_same_from h

theorem Memory.wfFrom_write {m : Memory} {lo a : Nat} {v : Word} (hlo : lo ≤ a) (ha : a < memSize)
    (h : Memory.wfFrom lo m = true) : Memory.wfFrom lo (Memory.write m a v) = true := by
  induction m generalizing lo with
  | nil => exact Memory.wfFrom_listed hlo ha rfl
  | cons b m ih =>
    obtain ⟨b, u⟩ := b
    obtain ⟨h1, h2, h3, h4⟩ := Memory.wfFrom_cons.mp h
    simp only [Memory.write]
    split
    · exact Memory.wfFrom_listed hlo ha (Memory.wfFrom_cons.mpr ⟨by omega, h2, h3, h4⟩)
    · split
      · rename_i hab
        subst hab
        exact Memory.wfFrom_listed hlo ha h4
      · exact Memory.wfFrom_cons.mpr ⟨h1, h2, h3, ih (by omega) h4⟩

/-- A write inside the address space keeps the canonical form. -/
theorem Memory.wf_write {m : Memory} {a : Nat} {v : Word} (ha : a < memSize) (h : Memory.wf m = true) :
    Memory.wf (Memory.write m a v) = true :=
  Memory.wfFrom_write (Nat.zero_le a) ha h

theorem Memory.wfFrom_image {ws : List Word} {a : Nat} (h : a + ws.length ≤ memSize) :
    Memory.wfFrom a (Memory.image a ws) = true := by
  induction ws generalizing a with
  | nil => rfl
  | cons w ws ih =>
    simp only [List.length_cons] at h
    exact Memory.wfFrom_listed le_rfl (by omega) (ih (by omega))

/-- A loaded image is in canonical form. -/
theorem Memory.wf_image {ws : List Word} (h : ws.length ≤ memSize) : Memory.wf (Memory.image 0 ws) = true :=
  Memory.wfFrom_image (by simpa using h)

/-- A cell of a loaded image: the image's word, or 0 past its end (R42). -/
theorem Memory.read_image_from {ws : List Word} {a c : Nat} (h : a + ws.length ≤ memSize) (hc : a ≤ c) :
    Memory.read (Memory.image a ws) c = ws.getD (c - a) unlistedCell := by
  induction ws generalizing a with
  | nil => simp [Memory.image]
  | cons w ws ih =>
    simp only [List.length_cons] at h
    simp only [Memory.image]
    rcases Nat.eq_or_lt_of_le hc with rfl | hlt
    · rw [Memory.read_listed_same (Memory.wfFrom_image (by omega))]
      simp
    · rw [Memory.read_listed_other (by omega), ih (by omega) (by omega)]
      obtain ⟨d, rfl⟩ : ∃ d, c = a + 1 + d := ⟨c - (a + 1), by omega⟩
      simp [show a + 1 + d - a = d + 1 by omega]

theorem Memory.read_image {ws : List Word} (h : ws.length ≤ memSize) (c : Nat) :
    Memory.read (Memory.image 0 ws) c = ws.getD c unlistedCell := by
  simpa using Memory.read_image_from (a := 0) (c := c) (by simpa using h) (Nat.zero_le c)

/-- Two memories in canonical form with the same cells are the same list. -/
theorem Memory.ext_from {m n : Memory} {lo : Nat} (hm : Memory.wfFrom lo m = true) (hn : Memory.wfFrom lo n = true)
    (h : ∀ a, Memory.read m a = Memory.read n a) : m = n := by
  induction m generalizing n lo with
  | nil =>
    cases n with
    | nil => rfl
    | cons c n =>
      obtain ⟨b, u⟩ := c
      obtain ⟨-, -, h3, -⟩ := Memory.wfFrom_cons.mp hn
      exact absurd (by simpa using (h b).symm) h3
  | cons c m ih =>
    obtain ⟨a, v⟩ := c
    obtain ⟨m1, m2, m3, m4⟩ := Memory.wfFrom_cons.mp hm
    cases n with
    | nil => exact absurd (by simpa using h a) m3
    | cons d n =>
      obtain ⟨b, u⟩ := d
      obtain ⟨n1, n2, n3, n4⟩ := Memory.wfFrom_cons.mp hn
      have hab : a = b := by
        rcases Nat.lt_trichotomy a b with hlt | heq | hgt
        · have := h a
          simp only [Memory.read_cons, if_neg (Nat.ne_of_lt hlt), if_true] at this
          exact absurd (this.trans (Memory.read_below n4 (by omega))) m3
        · exact heq
        · have := h b
          simp only [Memory.read_cons, if_neg (Nat.ne_of_lt hgt), if_true] at this
          exact absurd (this.symm.trans (Memory.read_below m4 (by omega))) n3
      subst hab
      have hv : v = u := by simpa using h a
      subst hv
      rw [ih m4 n4 fun c => ?_]
      by_cases hc : c = a
      · subst hc
        rw [Memory.read_below m4 (by omega), Memory.read_below n4 (by omega)]
      · simpa [hc] using h c

theorem Memory.ext {m n : Memory} (hm : Memory.wf m = true) (hn : Memory.wf n = true)
    (h : ∀ a, Memory.read m a = Memory.read n a) : m = n :=
  Memory.ext_from hm hn h

end Sys2Proof.Machine
end

