-- ==== Sys2Proof/Laws/State.lean ====
section
/-! SUPPORT. One lemma per field per named update of the state (`emit`, `raised`, `fetched`, `fetchFailed`,
`withProgramWord`, `loaded`, `setReg`), each true by rfl, so that no later proof unfolds a record update. -/

namespace Sys2Proof.Machine

/-! ## emit -/

@[simp] theorem State.emit_ac (s : State) (e : Event) : (s.emit e).ac = s.ac := rfl

@[simp] theorem State.emit_ir (s : State) (e : Event) : (s.emit e).ir = s.ir := rfl

@[simp] theorem State.emit_mbr (s : State) (e : Event) : (s.emit e).mbr = s.mbr := rfl

@[simp] theorem State.emit_mar (s : State) (e : Event) : (s.emit e).mar = s.mar := rfl

@[simp] theorem State.emit_pc (s : State) (e : Event) : (s.emit e).pc = s.pc := rfl

@[simp] theorem State.emit_mem (s : State) (e : Event) : (s.emit e).mem = s.mem := rfl

@[simp] theorem State.emit_runState (s : State) (e : Event) : (s.emit e).runState = s.runState := rfl

@[simp] theorem State.emit_haltCause (s : State) (e : Event) : (s.emit e).haltCause = s.haltCause := rfl

@[simp] theorem State.emit_err (s : State) (e : Event) : (s.emit e).err = s.err := rfl

@[simp] theorem State.emit_inQ (s : State) (e : Event) : (s.emit e).inQ = s.inQ := rfl

@[simp] theorem State.emit_outLog (s : State) (e : Event) : (s.emit e).outLog = s.outLog := rfl

@[simp] theorem State.emit_events (s : State) (e : Event) : (s.emit e).events = s.events ++ [e] := rfl

/-! ## raised -/

@[simp] theorem State.raised_ac (s : State) (e : FatalError) : (s.raised e).ac = s.ac := rfl

@[simp] theorem State.raised_ir (s : State) (e : FatalError) : (s.raised e).ir = s.ir := rfl

@[simp] theorem State.raised_mbr (s : State) (e : FatalError) : (s.raised e).mbr = s.mbr := rfl

@[simp] theorem State.raised_mar (s : State) (e : FatalError) : (s.raised e).mar = s.mar := rfl

@[simp] theorem State.raised_pc (s : State) (e : FatalError) : (s.raised e).pc = s.pc := rfl

@[simp] theorem State.raised_mem (s : State) (e : FatalError) : (s.raised e).mem = s.mem := rfl

@[simp] theorem State.raised_runState (s : State) (e : FatalError) : (s.raised e).runState = .halted := rfl

@[simp] theorem State.raised_haltCause (s : State) (e : FatalError) : (s.raised e).haltCause = .fatal := rfl

@[simp] theorem State.raised_err (s : State) (e : FatalError) : (s.raised e).err = some e := rfl

@[simp] theorem State.raised_inQ (s : State) (e : FatalError) : (s.raised e).inQ = s.inQ := rfl

@[simp] theorem State.raised_outLog (s : State) (e : FatalError) : (s.raised e).outLog = s.outLog := rfl

@[simp] theorem State.raised_events (s : State) (e : FatalError) : (s.raised e).events = s.events ++ [.error e] := rfl

/-! ## fetched -/

@[simp] theorem State.fetched_ac (s : State) : (s.fetched).ac = s.ac := rfl

@[simp] theorem State.fetched_ir (s : State) : (s.fetched).ir = s.fetchWord := rfl

@[simp] theorem State.fetched_mbr (s : State) : (s.fetched).mbr = s.fetchWord := rfl

@[simp] theorem State.fetched_mar (s : State) : (s.fetched).mar = s.pc := rfl

@[simp] theorem State.fetched_pc (s : State) : (s.fetched).pc = s.pc + 1 := rfl

@[simp] theorem State.fetched_mem (s : State) : (s.fetched).mem = s.mem := rfl

@[simp] theorem State.fetched_runState (s : State) : (s.fetched).runState = s.runState := rfl

@[simp] theorem State.fetched_haltCause (s : State) : (s.fetched).haltCause = s.haltCause := rfl

@[simp] theorem State.fetched_err (s : State) : (s.fetched).err = s.err := rfl

@[simp] theorem State.fetched_inQ (s : State) : (s.fetched).inQ = s.inQ := rfl

@[simp] theorem State.fetched_outLog (s : State) : (s.fetched).outLog = s.outLog := rfl

@[simp] theorem State.fetched_events (s : State) : (s.fetched).events = s.events := rfl

/-! ## fetchFailed -/

@[simp] theorem State.fetchFailed_ac (s : State) : (s.fetchFailed).ac = s.ac := rfl

@[simp] theorem State.fetchFailed_ir (s : State) : (s.fetchFailed).ir = s.fetchWord := rfl

@[simp] theorem State.fetchFailed_mbr (s : State) : (s.fetchFailed).mbr = s.fetchWord := rfl

@[simp] theorem State.fetchFailed_mar (s : State) : (s.fetchFailed).mar = s.pc := rfl

@[simp] theorem State.fetchFailed_pc (s : State) : (s.fetchFailed).pc = s.pc := rfl

@[simp] theorem State.fetchFailed_mem (s : State) : (s.fetchFailed).mem = s.mem := rfl

@[simp] theorem State.fetchFailed_runState (s : State) : (s.fetchFailed).runState = s.runState := rfl

@[simp] theorem State.fetchFailed_haltCause (s : State) : (s.fetchFailed).haltCause = s.haltCause := rfl

@[simp] theorem State.fetchFailed_err (s : State) : (s.fetchFailed).err = s.err := rfl

@[simp] theorem State.fetchFailed_inQ (s : State) : (s.fetchFailed).inQ = s.inQ := rfl

@[simp] theorem State.fetchFailed_outLog (s : State) : (s.fetchFailed).outLog = s.outLog := rfl

@[simp] theorem State.fetchFailed_events (s : State) : (s.fetchFailed).events = s.events := rfl

/-! ## withProgramWord -/

@[simp] theorem State.withProgramWord_ac (s : State) (v : Word) : (s.withProgramWord v).ac = s.ac := rfl

@[simp] theorem State.withProgramWord_ir (s : State) (v : Word) : (s.withProgramWord v).ir = s.ir := rfl

@[simp] theorem State.withProgramWord_mbr (s : State) (v : Word) : (s.withProgramWord v).mbr = s.mbr := rfl

@[simp] theorem State.withProgramWord_mar (s : State) (v : Word) : (s.withProgramWord v).mar = s.mar := rfl

@[simp] theorem State.withProgramWord_pc (s : State) (v : Word) : (s.withProgramWord v).pc = s.placementAddr := rfl

@[simp] theorem State.withProgramWord_mem (s : State) (v : Word) : (s.withProgramWord v).mem = Memory.write s.mem s.placementAddr.toNat v := rfl

@[simp] theorem State.withProgramWord_runState (s : State) (v : Word) : (s.withProgramWord v).runState = .running := rfl

@[simp] theorem State.withProgramWord_haltCause (s : State) (v : Word) : (s.withProgramWord v).haltCause = .none := rfl

@[simp] theorem State.withProgramWord_err (s : State) (v : Word) : (s.withProgramWord v).err = none := rfl

@[simp] theorem State.withProgramWord_inQ (s : State) (v : Word) : (s.withProgramWord v).inQ = s.inQ := rfl

@[simp] theorem State.withProgramWord_outLog (s : State) (v : Word) : (s.withProgramWord v).outLog = s.outLog := rfl

@[simp] theorem State.withProgramWord_events (s : State) (v : Word) : (s.withProgramWord v).events = s.events := rfl

/-! ## loaded -/

@[simp] theorem State.loaded_ac (cfg : Config) (image : List Word) (s : State) : (s.loaded cfg image).ac = 0 := rfl

@[simp] theorem State.loaded_ir (cfg : Config) (image : List Word) (s : State) : (s.loaded cfg image).ir = 0 := rfl

@[simp] theorem State.loaded_mbr (cfg : Config) (image : List Word) (s : State) : (s.loaded cfg image).mbr = 0 := rfl

@[simp] theorem State.loaded_mar (cfg : Config) (image : List Word) (s : State) : (s.loaded cfg image).mar = 0 := rfl

@[simp] theorem State.loaded_pc (cfg : Config) (image : List Word) (s : State) : (s.loaded cfg image).pc = 0 := rfl

@[simp] theorem State.loaded_mem (cfg : Config) (image : List Word) (s : State) : (s.loaded cfg image).mem = Memory.image 0 image := rfl

@[simp] theorem State.loaded_runState (cfg : Config) (image : List Word) (s : State) : (s.loaded cfg image).runState = .running := rfl

@[simp] theorem State.loaded_haltCause (cfg : Config) (image : List Word) (s : State) : (s.loaded cfg image).haltCause = .none := rfl

@[simp] theorem State.loaded_err (cfg : Config) (image : List Word) (s : State) : (s.loaded cfg image).err = none := rfl

@[simp] theorem State.loaded_inQ (cfg : Config) (image : List Word) (s : State) : (s.loaded cfg image).inQ = queueAfterLoad cfg s.inQ := rfl

@[simp] theorem State.loaded_outLog (cfg : Config) (image : List Word) (s : State) : (s.loaded cfg image).outLog = [] := rfl

@[simp] theorem State.loaded_events (cfg : Config) (image : List Word) (s : State) : (s.loaded cfg image).events = s.events := rfl

/-! ## setReg: each register by itself -/

@[simp] theorem State.setReg_ac (s : State) (v : Int) : s.setReg .ac v = { s with ac := BitVec.ofInt 16 v } := rfl

@[simp] theorem State.setReg_ir (s : State) (v : Int) : s.setReg .ir v = { s with ir := BitVec.ofInt 16 v } := rfl

@[simp] theorem State.setReg_mbr (s : State) (v : Int) : s.setReg .mbr v = { s with mbr := BitVec.ofInt 16 v } := rfl

@[simp] theorem State.setReg_mar (s : State) (v : Int) : s.setReg .mar v = { s with mar := BitVec.ofInt 12 v } := rfl

@[simp] theorem State.setReg_pc (s : State) (v : Int) : s.setReg .pc v = { s with pc := BitVec.ofInt 12 v } := rfl

/-! ## reg: each register by itself -/

@[simp] theorem State.reg_ac (s : State) : s.reg .ac = s.ac.toNat := rfl

@[simp] theorem State.reg_ir (s : State) : s.reg .ir = s.ir.toNat := rfl

@[simp] theorem State.reg_mbr (s : State) : s.reg .mbr = s.mbr.toNat := rfl

@[simp] theorem State.reg_mar (s : State) : s.reg .mar = s.mar.toNat := rfl

@[simp] theorem State.reg_pc (s : State) : s.reg .pc = s.pc.toNat := rfl

/-! ## resume and stop -/

theorem resume_of_paused {s : State} (h : s.runState = .paused) : resume s = { s with runState := .running } := if_pos h

theorem resume_of_not_paused {s : State} (h : s.runState ≠ .paused) : resume s = s := if_neg h

theorem stop_of_halted {s : State} (h : s.runState = .halted) : stop s = s := if_pos h

theorem stop_of_not_halted {s : State} (h : s.runState ≠ .halted) :
    stop s = { s with runState := .halted, haltCause := .stopped } := if_neg h

end Sys2Proof.Machine
end

