-- ==== Sys2Proof/Laws/Ops.lean ====
section
/-! SUPPORT. What each shared operation can do, said once: the width-checked register write (spec/00_scope.md R10), the
address decoder (spec/20_memory.md R35), the checked sum and difference (spec/42_memory_arith.md R95), the fetch
(spec/40_engine.md R74). Later proofs cite these lemmas and do not unfold the operations. -/

namespace Sys2Proof.Machine

/-! ## Bit vectors and the integers they stand for -/

theorem ofInt_toNat {n : Nat} (b : BitVec n) : BitVec.ofInt n (b.toNat : Int) = b := by
  simp

theorem ofInt_toNat_succ {n : Nat} (b : BitVec n) : BitVec.ofInt n ((b.toNat : Int) + 1) = b + 1 := by
  rw [BitVec.ofInt_add, ofInt_toNat]
  rfl

theorem ofInt_toNat_sub {n : Nat} (a b : BitVec n) : BitVec.ofInt n ((a.toNat : Int) - b.toNat) = a - b := by
  rw [Int.sub_eq_add_neg, BitVec.ofInt_add, BitVec.ofInt_neg, ofInt_toNat, ofInt_toNat, BitVec.sub_eq_add_neg]

theorem ofInt_toNat_pred {n : Nat} (b : BitVec n) : BitVec.ofInt n ((b.toNat : Int) - 1) = b - 1 := by
  rw [Int.sub_eq_add_neg, BitVec.ofInt_add, BitVec.ofInt_neg, ofInt_toNat, BitVec.sub_eq_add_neg]
  rfl

theorem addr_eq_last_iff {a : Addr} : a = 4095 ↔ a.toNat = 4095 :=
  ⟨fun h => by rw [h]; rfl, fun h => BitVec.eq_of_toNat_eq h⟩

theorem addr_toNat_succ {a : Addr} (h : a ≠ 4095) : (a + 1).toNat = a.toNat + 1 := by
  have h1 : a.toNat ≠ 4095 := fun e => h (addr_eq_last_iff.mpr e)
  have h2 := a.isLt
  rw [BitVec.toNat_add]
  exact Nat.mod_eq_of_lt (by simp; omega)

/-! ## The width-checked register write -/

theorem writeReg_of_fits {r : Reg} {v : Int} {s : State} {k : State → Result} (h0 : 0 ≤ v)
    (h1 : v ≤ 2 ^ r.width - 1) : writeReg r v s k = k (s.setReg r v) :=
  if_neg (by omega)

theorem writeReg_of_not_fits {r : Reg} {v : Int} {s : State} {k : State → Result}
    (h : v < 0 ∨ (2 : Int) ^ r.width - 1 < v) : writeReg r v s k = raise (.rangeError (.reg r)) s :=
  if_pos h

/-- Everything a width-checked write can do. -/
theorem writeReg_next {r : Reg} {v : Int} {s t : State} {k : State → Result} (h : writeReg r v s k = .next t) :
    (0 ≤ v ∧ v ≤ 2 ^ r.width - 1 ∧ k (s.setReg r v) = .next t) ∨
    ((v < 0 ∨ (2 : Int) ^ r.width - 1 < v) ∧ t = s.raised (.rangeError (.reg r))) := by
  unfold writeReg at h
  split at h
  · rename_i hv
    cases h
    exact .inr ⟨hv, rfl⟩
  · rename_i hv
    exact .inl ⟨by omega, by omega, h⟩

/-- Writing a 16-bit value to AC always fits. -/
theorem writeReg_ac {w : Word} {s : State} {k : State → Result} :
    writeReg .ac w.toNat s k = k { s with ac := w } := by
  have := w.isLt
  rw [writeReg_of_fits (by omega) (by simp [Reg.width]; omega), State.setReg_ac, ofInt_toNat]

theorem writeReg_ir {w : Word} {s : State} {k : State → Result} :
    writeReg .ir w.toNat s k = k { s with ir := w } := by
  have := w.isLt
  rw [writeReg_of_fits (by omega) (by simp [Reg.width]; omega), State.setReg_ir, ofInt_toNat]

theorem writeReg_mbr {w : Word} {s : State} {k : State → Result} :
    writeReg .mbr w.toNat s k = k { s with mbr := w } := by
  have := w.isLt
  rw [writeReg_of_fits (by omega) (by simp [Reg.width]; omega), State.setReg_mbr, ofInt_toNat]

theorem writeReg_mar {a : Addr} {s : State} {k : State → Result} :
    writeReg .mar a.toNat s k = k { s with mar := a } := by
  have := a.isLt
  rw [writeReg_of_fits (by omega) (by simp [Reg.width]; omega), State.setReg_mar, ofInt_toNat]

/-- Writing a 12-bit value to PC always fits. -/
theorem writeReg_pc {a : Addr} {s : State} {k : State → Result} :
    writeReg .pc a.toNat s k = k { s with pc := a } := by
  have := a.isLt
  rw [writeReg_of_fits (by omega) (by simp [Reg.width]; omega), State.setReg_pc, ofInt_toNat]

/-- PC one further fits unless the address is 4095 (R15). -/
theorem writeReg_pc_succ {a : Addr} {s : State} {k : State → Result} (h : a ≠ 4095) :
    writeReg .pc (a.toNat + 1) s k = k { s with pc := a + 1 } := by
  have h1 : a.toNat ≠ 4095 := fun e => h (addr_eq_last_iff.mpr e)
  have := a.isLt
  rw [writeReg_of_fits (by omega) (by simp [Reg.width]; omega), State.setReg_pc, ofInt_toNat_succ]

theorem writeReg_pc_succ_last {s : State} {k : State → Result} :
    writeReg .pc (((4095 : Addr).toNat : Int) + 1) s k = raise (.rangeError (.reg .pc)) s :=
  writeReg_of_not_fits (.inr (by decide))

/-- PC one back fits unless the address is 0. -/
theorem writeReg_pc_pred {a : Addr} {s : State} {k : State → Result} (h : a ≠ 0) :
    writeReg .pc ((a.toNat : Int) - 1) s k = k { s with pc := a - 1 } := by
  have h1 : a.toNat ≠ 0 := fun e => h (BitVec.eq_of_toNat_eq e)
  have := a.isLt
  rw [writeReg_of_fits (by omega) (by simp [Reg.width]; omega), State.setReg_pc, ofInt_toNat_pred]

/-- A 16-bit value as PC: it fits up to 4095 (R15, R93). -/
theorem writeReg_pc_word {w : Word} {s : State} {k : State → Result} (h : w.toNat ≤ 4095) :
    writeReg .pc w.toNat s k = k { s with pc := w.setWidth 12 } := by
  rw [writeReg_of_fits (by omega) (by simp [Reg.width]; omega), State.setReg_pc]
  rfl

theorem writeReg_pc_word_large {w : Word} {s : State} {k : State → Result} (h : 4095 < w.toNat) :
    writeReg .pc w.toNat s k = raise (.rangeError (.reg .pc)) s :=
  writeReg_of_not_fits (.inr (by simp [Reg.width]; omega))

/-! ## The address decoder -/

theorem memRead_of_lt {a : Nat} {s : State} {k : Word → Result} (h : a < memSize) :
    memRead a s k = k (Memory.read s.mem a) :=
  if_pos h

theorem memRead_of_ge {a : Nat} {s : State} {k : Word → Result} (h : memSize ≤ a) :
    memRead a s k = raise (.rangeError .addr) s :=
  if_neg (by omega)

theorem memWrite_of_lt {a : Nat} {v : Word} {s : State} {k : State → Result} (h : a < memSize) :
    memWrite a v s k = k { s with mem := Memory.write s.mem a v } :=
  if_pos h

theorem memWrite_of_ge {a : Nat} {v : Word} {s : State} {k : State → Result} (h : memSize ≤ a) :
    memWrite a v s k = raise (.rangeError .addr) s :=
  if_neg (by omega)

/-! ## Operand forms -/

theorem directAddr_eq (x : Addr) : directAddr x = x.toNat := rfl

theorem indirectAddr_eq (s : State) (x : Addr) : indirectAddr s x = (Memory.read s.mem x.toNat).toNat := rfl

theorem directAddr_lt (x : Addr) : directAddr x < memSize := x.isLt

/-- A direct operand never faults (R94). -/
theorem readDirect_eq {x : Addr} {s : State} {k : Word → Result} :
    readDirect x s k = k (Memory.read s.mem (directAddr x)) :=
  memRead_of_lt (directAddr_lt x)

theorem writeDirect_eq {x : Addr} {v : Word} {s : State} {k : State → Result} :
    writeDirect x v s k = k { s with mem := Memory.write s.mem (directAddr x) v } :=
  memWrite_of_lt (directAddr_lt x)

theorem readIndirect_of_lt {x : Addr} {s : State} {k : Word → Result} (h : indirectAddr s x < memSize) :
    readIndirect x s k = k (Memory.read s.mem (indirectAddr s x)) := by
  rw [readIndirect, memRead_of_lt (directAddr_lt x)]
  exact memRead_of_lt h

theorem readIndirect_of_ge {x : Addr} {s : State} {k : Word → Result} (h : memSize ≤ indirectAddr s x) :
    readIndirect x s k = raise (.rangeError .addr) s := by
  rw [readIndirect, memRead_of_lt (directAddr_lt x)]
  exact memRead_of_ge h

theorem writeIndirect_of_lt {x : Addr} {v : Word} {s : State} {k : State → Result} (h : indirectAddr s x < memSize) :
    writeIndirect x v s k = k { s with mem := Memory.write s.mem (indirectAddr s x) v } := by
  rw [writeIndirect, memRead_of_lt (directAddr_lt x)]
  exact memWrite_of_lt h

theorem writeIndirect_of_ge {x : Addr} {v : Word} {s : State} {k : State → Result} (h : memSize ≤ indirectAddr s x) :
    writeIndirect x v s k = raise (.rangeError .addr) s := by
  rw [writeIndirect, memRead_of_lt (directAddr_lt x)]
  exact memWrite_of_ge h

/-! ## Sum, difference and the skip tests -/

theorem addToAc_of_fits {m : Word} {s : State} {k : State → Result} (h : s.ac.toNat + m.toNat ≤ maxWord) :
    addToAc m s k = k { s with ac := s.ac + m } := by
  simp only [maxWord] at h
  unfold addToAc
  simp only [maxWord]
  rw [if_neg (by push_cast; omega), writeReg_of_fits (by omega) (by simp [Reg.width]; omega), State.setReg_ac,
    BitVec.ofInt_add, ofInt_toNat, ofInt_toNat]

theorem addToAc_of_overflow {m : Word} {s : State} {k : State → Result} (h : maxWord < s.ac.toNat + m.toNat) :
    addToAc m s k = raise .arithmeticOverflow s :=
  if_pos (by simp only [maxWord] at h ⊢; omega)

theorem subFromAc_of_fits {m : Word} {s : State} {k : State → Result} (h : m.toNat ≤ s.ac.toNat) :
    subFromAc m s k = k { s with ac := s.ac - m } := by
  have := s.ac.isLt
  unfold subFromAc
  rw [if_neg (by omega), writeReg_of_fits (by omega) (by simp [Reg.width]; omega), State.setReg_ac,
    ofInt_toNat_sub]

theorem subFromAc_of_underflow {m : Word} {s : State} {k : State → Result} (h : s.ac.toNat < m.toNat) :
    subFromAc m s k = raise .arithmeticUnderflow s :=
  if_pos (by omega)

theorem skipTaken_eq_none_iff {c : BitVec 2} {a : Word} : skipTaken c a = none ↔ c = 3 := by
  have h : c = 0 ∨ c = 1 ∨ c = 2 ∨ c = 3 := by revert c; decide
  rcases h with rfl | rfl | rfl | rfl <;> simp [skipTaken]

/-! ## The fetch -/

theorem fetch_of_ne_last {s : State} {k : State → Result} (h : s.pc ≠ 4095) : fetch s k = k s.fetched := by
  unfold fetch
  simp only [writeReg_mar, memRead_of_lt s.pc.isLt, writeReg_mbr, writeReg_ir, writeReg_pc_succ h]
  rfl

/-- "The instruction at address 4095 is therefore never executed" (R74). -/
theorem fetch_of_last {s : State} {k : State → Result} (h : s.pc = 4095) :
    fetch s k = raise (.rangeError (.reg .pc)) s.fetchFailed := by
  have h4 : s.pc.toNat = 4095 := addr_eq_last_iff.mp h
  unfold fetch
  simp only [writeReg_mar, memRead_of_lt s.pc.isLt, writeReg_mbr, writeReg_ir]
  exact writeReg_of_not_fits (.inr (by simp [Reg.width, h4]))

end Sys2Proof.Machine
end

