-- ==== Sys2Proof/Laws/PerInstr.lean ====
section
/-! SUPPORT. Per-instruction facts about the syntax. Family `Spelling`: zeroing the bits execution ignores (R57) keeps the
table row and the opcode, is done once for all, and changes nothing in a word that already has them zero. -/

namespace Sys2Proof.Laws.Spelling

/-- What the family says of one instruction. -/
def Statement (i : Instr) : Prop :=
  i.canonical.mnemonic = i.mnemonic ∧ opcodeFor i.canonical = opcodeFor i ∧ i.canonical.canonical = i.canonical ∧
    (i.ignoredBitsZero = true ↔ i.canonical = i)

theorem jns (x : Addr) : Statement (.jns x) := by simp [Statement, Instr.canonical, Instr.ignoredBitsZero]

theorem load (x : Addr) : Statement (.load x) := by simp [Statement, Instr.canonical, Instr.ignoredBitsZero]

theorem store (x : Addr) : Statement (.store x) := by simp [Statement, Instr.canonical, Instr.ignoredBitsZero]

theorem add (x : Addr) : Statement (.add x) := by simp [Statement, Instr.canonical, Instr.ignoredBitsZero]

theorem subt (x : Addr) : Statement (.subt x) := by simp [Statement, Instr.canonical, Instr.ignoredBitsZero]

theorem input (g : BitVec 12) : Statement (.input g) :=
  ⟨rfl, rfl, rfl, by simp [Instr.canonical, Instr.ignoredBitsZero, eq_comm (a := g)]⟩

theorem output (g : BitVec 12) : Statement (.output g) :=
  ⟨rfl, rfl, rfl, by simp [Instr.canonical, Instr.ignoredBitsZero, eq_comm (a := g)]⟩

theorem halt (g : BitVec 12) : Statement (.halt g) :=
  ⟨rfl, rfl, rfl, by simp [Instr.canonical, Instr.ignoredBitsZero, eq_comm (a := g)]⟩

theorem skipcond (c : BitVec 2) (g : BitVec 10) : Statement (.skipcond c g) :=
  ⟨rfl, rfl, rfl, by simp [Instr.canonical, Instr.ignoredBitsZero, eq_comm (a := g)]⟩

theorem jump (x : Addr) : Statement (.jump x) := by simp [Statement, Instr.canonical, Instr.ignoredBitsZero]

theorem clear (g : BitVec 12) : Statement (.clear g) :=
  ⟨rfl, rfl, rfl, by simp [Instr.canonical, Instr.ignoredBitsZero, eq_comm (a := g)]⟩

theorem addi (x : Addr) : Statement (.addi x) := by simp [Statement, Instr.canonical, Instr.ignoredBitsZero]

theorem jumpi (x : Addr) : Statement (.jumpi x) := by simp [Statement, Instr.canonical, Instr.ignoredBitsZero]

theorem loadi (x : Addr) : Statement (.loadi x) := by simp [Statement, Instr.canonical, Instr.ignoredBitsZero]

theorem storei (x : Addr) : Statement (.storei x) := by simp [Statement, Instr.canonical, Instr.ignoredBitsZero]

theorem illegal (g : BitVec 12) : Statement (.illegal g) :=
  ⟨rfl, rfl, rfl, by simp [Instr.canonical, Instr.ignoredBitsZero, eq_comm (a := g)]⟩

end Sys2Proof.Laws.Spelling
end

