-- ==== Sys2Proof/Laws/Step.lean ====
section
/-! SUPPORT. What a step can do, said once, by inversion (spec/40_engine.md R73, R78), and that a run is the sequence of its
steps (R81). -/

namespace Sys2Proof.Machine

/-- If a step answers a next state, the engine was Running and either the fetch failed at 4095 or the execute phase of the
fetched word, from the fetched state, answered it. -/
theorem step_next {s t : State} (h : step s = .next t) :
    s.runState = .running ∧
    ((s.pc = 4095 ∧ t = s.fetchFailed.raised (.rangeError (.reg .pc))) ∨
     (s.pc ≠ 4095 ∧ exec (decode s.fetchWord) s.fetched = .next t)) := by
  unfold step at h
  split at h
  · rename_i hrun
    refine ⟨hrun, ?_⟩
    by_cases hpc : s.pc = 4095
    · rw [fetch_of_last hpc] at h
      cases h
      exact .inl ⟨hpc, rfl⟩
    · rw [fetch_of_ne_last hpc] at h
      exact .inr ⟨hpc, h⟩
  · cases h

/-- A run of `m + n` steps is a run of `m`, then a run of `n`; a run that has left Running stays where it is. -/
theorem runFor_of_not_running {s : State} (h : s.runState ≠ .running) (n : Nat) : runFor n s = s := by
  cases n with
  | zero => rfl
  | succ n => simp [runFor, step, h]

/-- One more step at the front of a run. -/
theorem runFor_succ_of_next {s t : State} (h : step s = .next t) (n : Nat) : runFor (n + 1) s = runFor n t := by
  simp [runFor, h]

/-- A command that is refused leaves the state as it was (R42, R73, R82). -/
theorem settle_refused {s : State} {why : Refusal} {reply : State → Reply} :
    (settle s (.refused why) reply).1 = s := rfl

theorem settle_next {s t : State} {reply : State → Reply} : (settle s (.next t) reply).1 = t := rfl

/-- Placing a word where the next step fetches makes that step run exactly it (log 11). -/
theorem step_withProgramWord {s : State} {w : Word} (h : Memory.wf s.mem = true) :
    step (s.withProgramWord w) = exec (decode w) (s.withProgramWord w).fetched := by
  have hpc : (s.withProgramWord w).pc ≠ 4095 := by
    simp only [State.withProgramWord_pc, State.placementAddr]
    split
    · decide
    · assumption
  have hword : (s.withProgramWord w).fetchWord = w := Memory.read_write_same h
  have hir : (s.withProgramWord w).fetched.ir = w := hword
  unfold step
  rw [if_pos (State.withProgramWord_runState s w), fetch_of_ne_last hpc, hir]

/-! ## The load and set-input commands -/

theorem load_of_accepted {cfg : Config} {image : List Int} {s : State} (hl : image.length ≤ memSize)
    (hw : image.all inWordRange = true) : load cfg image s = .next (s.loaded cfg (toWords image)) := by
  unfold load
  rw [if_neg (by omega), if_pos hw]

/-- If a load answers a next state, the image was within both bounds (R42). -/
theorem load_next {cfg : Config} {image : List Int} {s t : State} (h : load cfg image s = .next t) :
    image.length ≤ memSize ∧ image.all inWordRange = true ∧ t = s.loaded cfg (toWords image) := by
  unfold load at h
  split at h
  · cases h
  · split at h
    · rename_i hl hw
      cases h
      exact ⟨by omega, hw, rfl⟩
    · cases h

theorem setInput_next {values : List Int} {s t : State} (h : setInput values s = .next t) :
    values.all inWordRange = true ∧ t = { s with inQ := s.inQ ++ toWords values } := by
  unfold setInput at h
  split at h
  · rename_i hv
    cases h
    exact ⟨hv, rfl⟩
  · cases h

/-- The words of accepted values are the values. -/
theorem toNat_ofInt_of_inWordRange {v : Int} (h : inWordRange v = true) :
    ((BitVec.ofInt 16 v).toNat : Int) = v := by
  simp only [inWordRange, Bool.and_eq_true, decide_eq_true_eq, maxWord] at h
  rw [BitVec.toNat_ofInt]
  omega

end Sys2Proof.Machine
end

