-- ==== Sys2Proof/Laws/Safety.lean ====
section
/-! SUPPORT. The terms of Safety.lean: a raise halts with its error, and the induction over the states the host's commands
reach, packaged once. -/

namespace Sys2Proof.Machine

/-- Raising an error halts with that error (spec/60_exceptions.md R109). -/
theorem haltsWith_raise (e : FatalError) (s : State) : HaltsWith (raise e s) e s :=
  ⟨s.raised e, rfl, rfl, rfl, rfl, rfl, rfl, rfl, rfl, rfl, rfl, rfl⟩

/-- What holds after construction and is kept by every host command holds of every reachable state. -/
theorem Reachable.of_kept {cfg : Config} {P : State → Prop} (h0 : P State.reset)
    (hkept : ∀ c s, P s → P (perform cfg c s).1) {s : State} (h : Reachable cfg s) : P s := by
  induction h with
  | construction => exact h0
  | command c _ ih => exact hkept c _ ih

/-- A session of commands from a reachable state ends in a reachable state. -/
theorem Reachable.performAll {cfg : Config} {s : State} (h : Reachable cfg s) (cs : List Command) :
    Reachable cfg (Machine.performAll cfg cs s) := by
  induction cs generalizing s with
  | nil => exact h
  | cons c cs ih => exact ih (h.command c)

/-- The cell an instruction stores to is the same before and after the fetch, which changes no cell (R74). -/
theorem storeAddr_fetched (i : Instr) (s : State) : storeAddr i s.fetched = storeAddr i s := by
  cases i <;> rfl

end Sys2Proof.Machine
end

