-- ==== Sys2Proof/Tests/Slice0.lean ====
section
/-! SUPPORT. The model's own tests: expected results are the spec's vectors (spec/95_test_vectors.md, V<n>, S<n>, X<n>) or
words written out from spec/30_encoding.md. Then, for each obligation with hypotheses, states and operands that meet them,
with the boundary values of its clauses. -/

namespace Sys2Proof.Tests

open Sys2Proof Sys2Proof.Machine

/-! ## Helpers -/

/-- A running engine with a PC, an AC and a memory; the rest as after construction. -/
def machineAt (pc : Addr) (ac : Word) (mem : Memory) : State :=
  { State.reset with pc := pc, ac := ac, mem := mem, runState := .running }

/-- The next state an operation answers. -/
def after (r : Result) : State :=
  match r with
  | .next t => t
  | .fault _ => State.reset
  | .refused _ => State.reset

def isNext (r : Result) : Bool :=
  match r with
  | .next _ => true
  | .fault _ => false
  | .refused _ => false

/-- The next state of an operation that answers one. -/
theorem next_after {r : Result} (h : isNext r = true) : r = .next (after r) := by
  cases r with
  | next t => rfl
  | fault f => cases h
  | refused w => cases h

/-! ## Well-formedness: one ill-formed term for each check -/

theorem test_wellFormed_accepts_assembler_spelling : (Instr.skipcond 1 0).wellFormed = true := by decide

theorem test_wellFormed_refuses_opcode_15 : (Instr.illegal 0).wellFormed = false := by decide

theorem test_wellFormed_refuses_ignored_bits :
    (Instr.halt 0x123).wellFormed = false ∧ (Instr.skipcond 1 1).wellFormed = false := by decide

theorem test_wellFormed_refuses_condition_3 : (Instr.skipcond 3 0).wellFormed = false := by decide

/-! ## Decoding: a word of each constructor, written out from R50 and R54 -/

theorem test_decode_jns : decode 0b0000000000100000 = .jns 32 := by decide
theorem test_decode_load : decode 0b0001000000000011 = .load 3 := by decide
theorem test_decode_store : decode 0b0010000000001011 = .store 11 := by decide
theorem test_decode_add : decode 0b0011000000001000 = .add 8 := by decide
theorem test_decode_subt : decode 0b0100000000001000 = .subt 8 := by decide
theorem test_decode_input : decode 0b0101000000000000 = .input 0 := by decide
theorem test_decode_output : decode 0b0110000000000000 = .output 0 := by decide
theorem test_decode_halt : decode 0b0111000100100011 = .halt 0x123 := by decide
theorem test_decode_skipcond : decode 0b1000010000000001 = .skipcond 1 1 := by decide
theorem test_decode_jump : decode 0b1001000000000001 = .jump 1 := by decide
theorem test_decode_clear : decode 0b1010000100100011 = .clear 0x123 := by decide
theorem test_decode_addi : decode 0b1011000000001001 = .addi 9 := by decide
theorem test_decode_jumpi : decode 0b1100000000000101 = .jumpi 5 := by decide
theorem test_decode_loadi : decode 0b1101000000001010 = .loadi 10 := by decide
theorem test_decode_storei : decode 0b1110000000001010 = .storei 10 := by decide
theorem test_decode_illegal : decode 0b1111111111111111 = .illegal 0xFFF := by decide

/-- WMA §8 (X1, X2): OUTPUT = 24576, HALT = 28672, LOAD 3 = 4099. -/
theorem test_encode_worked_words :
    encode (.output 0) = 24576 ∧ encode (.halt 0) = 28672 ∧ encode (.load 3) = 4099 := by decide

theorem test_opcodeTable_rows_disjoint :
    opcodeTable.Pairwise (fun r q => r.mnemonic ≠ q.mnemonic ∧ (r.pattern &&& q.mask) ≠ (q.pattern &&& r.mask)) := by decide

/-- More than 16 bits are no one instruction; fewer have zeros above them. -/
theorem test_decodeTableWord_width :
    decodeTableWord 17 0x1003 = none ∧ decodeTableWord 16 0x1003 = some (.load 3) ∧
    decodeTableWord 8 0x1003 = some (.jns 3) := by decide

/-! ## One step of each instruction -/

/-- X2, first step; V1: LOAD of its own word. -/
theorem test_load : (after (step (machineAt 0 0 [(0, 0x1003), (3, 12)]))).ac = 12 ∧
    (after (step (machineAt 4 0 [(4, 0x1004)]))).ac = 4100 := by decide

/-- V11, V12: a store, and a store over the next instruction. -/
theorem test_store : Memory.read (after (step (machineAt 0 42 [(0, 0x200B)]))).mem 11 = 42 ∧
    (after (step (after (step (machineAt 0 0x6000 [(0, 0x2001), (1, 0x7000)]))))).outLog = [0x6000] := by decide

/-- V4, V5. -/
theorem test_add : (after (step (machineAt 0 32768 [(0, 0x3010), (16, 32767)]))).ac = 65535 ∧
    (after (step (machineAt 0 32768 [(0, 0x3010), (16, 32768)]))).err = some .arithmeticOverflow := by decide

/-- V3: AC stays 65535, PC = 1, event Error. -/
theorem test_add_overflow_keeps_ac :
    let t := after (step (machineAt 0 65535 [(0, 0x3010), (16, 1)]))
    t.ac = 65535 ∧ t.pc = 1 ∧ t.runState = .halted ∧ t.events = [.error .arithmeticOverflow] := by decide

/-- V9, V8. -/
theorem test_subt : (after (step (machineAt 0 65535 [(0, 0x4010), (16, 65535)]))).ac = 0 ∧
    (after (step (machineAt 0 0 [(0, 0x4010), (16, 1)]))).err = some .arithmeticUnderflow := by decide

/-- V10. -/
theorem test_clear : (after (step (machineAt 0 1234 [(0, 0xA123)]))).ac = 0 := by decide

/-- V16, V26. -/
theorem test_addi : (after (step (machineAt 0 1 [(0, 0xB010), (16, 16)]))).ac = 17 ∧
    (after (step (machineAt 0 65535 [(0, 0xB010), (16, 17), (17, 1)]))).err = some .arithmeticOverflow := by decide

/-- V27: the address check comes first. -/
theorem test_addi_address_first :
    (after (step (machineAt 0 65535 [(0, 0xB010), (16, 5000)]))).err = some (.rangeError .addr) := by decide

/-- V14, V13. -/
theorem test_loadi : (after (step (machineAt 0 0 [(0, 0xD00A), (10, 11), (11, 99)]))).ac = 99 ∧
    (after (step (machineAt 0 9 [(0, 0xD010), (16, 4096)]))).err = some (.rangeError .addr) := by decide

/-- V18, V17. -/
theorem test_storei : Memory.read (after (step (machineAt 0 42 [(0, 0xE010), (16, 16)]))).mem 16 = 42 ∧
    (after (step (machineAt 0 9 [(0, 0xE010), (16, 65535)]))).mem = [(0, 0xE010), (16, 65535)] := by decide

/-- V24, V28. -/
theorem test_jns : (after (step (machineAt 16 0 [(16, 0x0020)]))).pc = 33 ∧
    Memory.read (after (step (machineAt 4 0 [(4, 0x0004)]))).mem 4 = 5 := by decide

/-- V25: the write stands, PC = 17. -/
theorem test_jns_last :
    let t := after (step (machineAt 16 0 [(16, 0x0FFF)]))
    Memory.read t.mem 4095 = 17 ∧ t.err = some (.rangeError (.reg .pc)) ∧ t.pc = 17 := by decide

/-- The table of section 2.2 of the vectors: SKIPCOND at 5, PC after the step, for c = 0, 1, 2. -/
theorem test_skipcond_table :
    [0, 1, 32767, 32768, 65535].map (fun ac => [0x8000, 0x8400, 0x8800].map fun w => (after (step (machineAt 5 ac [(5, w)]))).pc)
      = [[6, 7, 6], [6, 6, 7], [6, 6, 7], [7, 6, 6], [7, 6, 6]] := by decide

/-- V21, V22. -/
theorem test_skipcond_errors :
    (after (step (machineAt 5 0 [(5, 0x8C00)]))).err = some (.invalidCondition 3) ∧
    (after (step (machineAt 4094 0 [(4094, 0x8400)]))).err = some (.rangeError (.reg .pc)) ∧
    (after (step (machineAt 4094 0 [(4094, 0x8400)]))).pc = 4095 := by decide

/-- V30. -/
theorem test_jump : (after (step (machineAt 0 0 [(0, 0x9FFF)]))).pc = 4095 := by decide

/-- V32, V31. -/
theorem test_jumpi : (after (step (machineAt 0 0 [(0, 0xC010), (16, 4095)]))).pc = 4095 ∧
    (after (step (machineAt 0 0 [(0, 0xC010), (16, 4096)]))).err = some (.rangeError (.reg .pc)) := by decide

/-- V36, V37. -/
theorem test_input :
    let t := after (step { machineAt 0 9 [(0, 0x5000)] with inQ := [7, 8] })
    let u := after (step (machineAt 10 9 [(10, 0x5000)]))
    t.ac = 7 ∧ t.inQ = [8] ∧ t.events = [] ∧ u.runState = .paused ∧ u.pc = 10 ∧ u.events = [.inputRequested] := by decide

/-- V38. -/
theorem test_output :
    let t := after (step (machineAt 0 0 [(0, 0x6000)]))
    t.outLog = [0] ∧ t.events = [.output 0] := by decide

/-- V39. -/
theorem test_halt :
    let t := after (step (machineAt 2 0 [(2, 0x7123)]))
    t.haltCause = .haltInstr ∧ t.pc = 3 ∧ t.events = [.programEnd] := by decide

/-- V41, V40. -/
theorem test_illegal : (after (step (machineAt 0 3 [(0, 0xF000)]))).err = some (.unknownOpcode 15) ∧
    (after (step (machineAt 4095 3 [(4095, 0xFFFF)]))).err = some (.rangeError (.reg .pc)) := by decide

/-- V33: what a failed fetch leaves. -/
theorem test_fetch_last :
    let t := after (step (machineAt 4095 0 [(4095, 0x7000)]))
    t.pc = 4095 ∧ t.mar = 4095 ∧ t.ir = 0x7000 ∧ t.mbr = 0x7000 ∧ t.haltCause = .fatal := by decide

/-- A word placed after construction is what the first step runs (log 11). -/
theorem test_withFetchWord : (after (step (State.reset.withFetchWord 16 0x9001))).pc = 1 := by decide

/-! ## Host commands (V42 to V50) -/

def keepQueue : Config := ⟨.keep, .ten⟩
def clearQueue : Config := ⟨.clear, .sixteen⟩

theorem test_load_command :
    let s := { after (step (machineAt 2 42 [(2, 0x7000)])) with inQ := [5], outLog := [1] }
    let t := after (load keepQueue [0x7000, 0, 3] s)
    t.mem = [(0, 0x7000), (2, 3)] ∧ t.runState = .running ∧ t.haltCause = .none ∧ t.outLog = [] ∧ t.inQ = [5] ∧
    (after (load clearQueue [0x7000] s)).inQ = [] ∧
    (perform keepQueue (.load [70000]) s) = (s, .refused .imageWordOutOfRange) := by decide

theorem test_load_too_long (s : State) :
    load keepQueue (List.replicate 4097 0) s = .refused .imageTooLong := by
  unfold load
  rw [List.length_replicate, if_pos (by decide)]

theorem test_setInput :
    perform keepQueue (.setInput [1, 70000]) { State.reset with inQ := [5] } =
      ({ State.reset with inQ := [5] }, .refused .inputValueOutOfRange) ∧
    (after (setInput [1, 2] (stop State.reset))).inQ = [1, 2] := by decide

theorem test_resume_stop :
    let paused := after (step (machineAt 0 0 [(0, 0x5000)]))
    let faulted := after (step (machineAt 0 0 [(0, 0xF000)]))
    resume faulted = faulted ∧ (resume paused).runState = .running ∧ (stop paused).haltCause = .stopped ∧
    (stop paused).events = paused.events ∧ (stop faulted).haltCause = .fatal := by decide

theorem test_inspect_paused : (inspect (after (step (machineAt 0 0 [(0, 0x5000)])))).running = false := by decide

theorem test_step_reply :
    (perform keepQueue .step (machineAt 0 7 [(0, 0x6000)])).2 = .stepped [.output 7] ∧
    (perform keepQueue .step State.reset).2 = .refused .stepNotRunning := by decide

/-- P1: X1's code executed, data at address 0: five steps to a completed run with 7 in the log. -/
theorem test_run_P1 :
    let t := runFor 6 (after (load keepQueue [0x0005, 0x1000, 0x6000, 0x7000] State.reset))
    t.outcome = some .completed ∧ t.outLog = [7] ∧ t.pc = 4 := by decide

/-! ## Assembler (S1 to S21, X1, X7) -/

/-- The words of an assembly, none on failure. -/
def wordsOf (cfg : Config) (source : String) : Option (List Word) :=
  match Assembler.assemble cfg source.toList with
  | .ok (ws, _) => some ws
  | .error _ => none

/-- The error of an assembly, none on success. -/
def errorOf (source : String) : Option (Nat × Assembler.Problem) :=
  match Assembler.assemble keepQueue source.toList with
  | .ok _ => none
  | .error e => some (e.line, e.problem)

theorem test_assemble_worked_examples :
    wordsOf keepQueue "x, dec 5\nload x\noutput\nhalt" = some [5, 4096, 24576, 28672] ∧
    wordsOf keepQueue "        jump fwd\nback,   halt\nfwd,    jump back" = some [0x9002, 0x7000, 0x9001] := by decide

theorem test_assemble_words :
    wordsOf keepQueue "hex FFFF" = some [65535] ∧
    wordsOf keepQueue "skipcond 0\nskipcond 1024\nskipcond 2048" = some [0x8000, 0x8400, 0x8800] ∧
    wordsOf keepQueue "load 10" = some [0x100A] ∧ wordsOf clearQueue "load 10" = some [0x1010] ∧
    wordsOf keepQueue "A, hex A" = some [0] ∧ wordsOf keepQueue "// c\n\nx, load x" = some [0x1000] ∧
    wordsOf keepQueue "JUMP 7\nInput\nclear" = some [0x9007, 0x5000, 0xA000] := by decide

theorem test_assemble_argument_errors :
    errorOf "load" = some (1, .requiresArgument) ∧ errorOf "x, halt 5" = some (1, .doesNotAcceptArgument) ∧
    errorOf "halt 5" = some (1, .doesNotAcceptArgument) ∧ errorOf "load y" = some (1, .undefinedSymbol) ∧
    errorOf "load 1 2" = some (1, .extraOperand) ∧ errorOf "load 4096" = some (1, .undefinedSymbol) ∧
    errorOf "Load 0x10" = some (1, .undefinedSymbol) := by decide

theorem test_assemble_literal_and_label_errors :
    errorOf "dec 65536" = some (1, .invalidNumericLiteral) ∧ errorOf "dec -1" = some (1, .invalidNumericLiteral) ∧
    errorOf "hex 10000" = some (1, .invalidNumericLiteral) ∧ errorOf "dec 12z" = some (1, .invalidNumericLiteral) ∧
    errorOf "x, dec 1\nx, dec 2" = some (2, .duplicateLabel) ∧ errorOf "foo 3" = some (1, .unknownInstruction) ∧
    errorOf "skipcond 3000" = some (1, .requiresValidCondition) ∧ errorOf "x," = some (1, .requiresInstruction) ∧
    errorOf "// c\n\nload, dec 1" = some (3, .malformedLabel) := by decide

/-! ## Witnesses: states and operands that meet the hypotheses of each obligation -/

/-- A Running engine whose INPUT at 0 finds an empty queue, and the Paused one it becomes. -/
def beforePause : State := machineAt 0 0 [(0, 0x5000)]
def paused : State := after (step beforePause)

/-- The invariant of a Running engine with canonical memory. -/
theorem inv_of_running {s : State} (hr : s.runState = .running) (hm : Memory.wf s.mem = true)
    (hc : s.haltCause = .none) (he : s.err = none) (hb : s.mbr = s.ir) : s.Inv :=
  ⟨hm, by simp [hr, hc], by simp [hc, he], hb, by simp [hr]⟩

theorem paused_inv : paused.Inv :=
  ⟨by decide, by decide, by decide, by decide, fun _ => by decide⟩

theorem witness_StepKeepsInvariant :
    beforePause.Inv ∧ step beforePause = .next paused ∧
    (machineAt 4095 0 []).Inv ∧ ∃ t, step (machineAt 4095 0 []) = .next t :=
  ⟨inv_of_running rfl rfl rfl rfl rfl, next_after (by decide), inv_of_running rfl rfl rfl rfl rfl,
    _, next_after (by decide)⟩

theorem witness_HostCommandsKeepInvariant : paused.Inv ∧ paused.runState = .paused := ⟨paused_inv, by decide⟩

theorem witness_RegisterWriteIsWidthChecked :
    ((-1 : Int) < 0) ∧ ((4096 : Int) > 2 ^ Reg.pc.width - 1) ∧ ¬ ((4095 : Int) < 0 ∨ (4095 : Int) > 2 ^ Reg.pc.width - 1) ∧
    ((65536 : Int) > 2 ^ Reg.ac.width - 1) ∧ ¬ ((65535 : Int) < 0 ∨ (65535 : Int) > 2 ^ Reg.ac.width - 1) := by decide

/-- Both clauses at their boundary: 4095 is read and written, 4096 raises. -/
theorem witness_AddressDecoderSelectsOneCell :
    isNext (memWrite 4095 7 beforePause .next) = true ∧ Memory.wf beforePause.mem = true ∧
    Memory.read (after (memWrite 4095 7 beforePause .next)).mem 4095 = 7 ∧
    (after (memWrite 4096 7 beforePause .next)).err = some (.rangeError .addr) := by decide

theorem witness_StoreWritesAcToCell : Memory.wf beforePause.mem = true := by decide

/-- Sums 65535 and 65536. -/
theorem witness_AddIsExactOrOverflows :
    let s := machineAt 1 32768 [(16, 32767), (17, 32768)]
    s.ac.toNat + (Memory.read s.mem (16 : Addr).toNat).toNat ≤ 65535 ∧
    65535 < s.ac.toNat + (Memory.read s.mem (17 : Addr).toNat).toNat := by decide

/-- Differences 0 and -1. -/
theorem witness_SubtIsExactOrUnderflows :
    let s := machineAt 1 5 [(16, 5), (17, 6)]
    (Memory.read s.mem (16 : Addr).toNat).toNat ≤ s.ac.toNat ∧ s.ac.toNat < (Memory.read s.mem (17 : Addr).toNat).toNat := by
  decide

/-- A machine with pointers 4095 (to a cell that holds 1) and 4096. -/
def pointers : State := machineAt 1 65534 [(16, 4095), (17, 4096), (4095, 1)]

/-- Pointers 4095 and 4096; sums 65535 and, with AC = 65535, 65536. -/
theorem witness_AddiAddsThroughPointer :
    let p := (Memory.read pointers.mem (16 : Addr).toNat).toNat
    p ≤ 4095 ∧ pointers.ac.toNat + (Memory.read pointers.mem p).toNat ≤ 65535 ∧
    65535 < ({ pointers with ac := 65535 } : State).ac.toNat + (Memory.read pointers.mem p).toNat ∧
    4095 < (Memory.read pointers.mem (17 : Addr).toNat).toNat := by decide

theorem witness_LoadiLoadsThroughPointer :
    (Memory.read pointers.mem (16 : Addr).toNat).toNat ≤ 4095 ∧ 4095 < (Memory.read pointers.mem (17 : Addr).toNat).toNat := by
  decide

theorem witness_StoreiStoresThroughPointer :
    (Memory.read pointers.mem (16 : Addr).toNat).toNat ≤ 4095 ∧ Memory.wf pointers.mem = true ∧
    4095 < (Memory.read pointers.mem (17 : Addr).toNat).toNat := by decide

theorem witness_JumpiJumpsThroughPointer :
    (Memory.read pointers.mem (16 : Addr).toNat).toNat ≤ 4095 ∧ 4095 < (Memory.read pointers.mem (17 : Addr).toNat).toNat := by
  decide

theorem witness_JnsStoresReturnAddress :
    Memory.wf pointers.mem = true ∧ (4094 : Addr) ≠ 4095 ∧ isNext (exec (.jns 4094) pointers) = true ∧
    (after (exec (.jns 4094) pointers)).pc = 4095 ∧ (after (exec (.jns 4095) pointers)).pc = 1 := by decide

/-- Every clause at its boundaries: AC 0, 1, 32767, 32768 and 65535, PC 4094 and 4095, condition 3. -/
theorem witness_SkipcondSkipsByAccumulator :
    (after (exec (.skipcond 0 0) (machineAt 4094 32768 []))).pc = 4095 ∧
    (after (exec (.skipcond 0 0) (machineAt 4094 32767 []))).pc = 4094 ∧
    (after (exec (.skipcond 1 0) (machineAt 4095 0 []))).err = some (.rangeError (.reg .pc)) ∧
    (after (exec (.skipcond 1 0) (machineAt 4094 1 []))).pc = 4094 ∧
    (after (exec (.skipcond 2 0) (machineAt 4094 1 []))).pc = 4095 ∧
    (after (exec (.skipcond 2 0) (machineAt 4094 32767 []))).pc = 4095 ∧
    (after (exec (.skipcond 2 0) (machineAt 4094 32768 []))).pc = 4094 ∧
    (after (exec (.skipcond 3 0) (machineAt 4094 65535 []))).err = some (.invalidCondition 3) := by decide

theorem witness_UnknownOpcodeHalts :
    let s := machineAt 4094 0 [(4094, 0xF000)]
    s.runState = .running ∧ s.pc ≠ 4095 ∧ opcodeOf (Memory.read s.mem s.pc.toNat) = 15 := by decide

theorem witness_JumpiReturnsFromJns :
    ∃ t u : State, Memory.wf beforePause.mem = true ∧ exec (.jns 4095) beforePause = .next t ∧
      Memory.read u.mem (4095 : Addr).toNat = Memory.read t.mem (4095 : Addr).toNat :=
  ⟨_, _, by decide, next_after (by decide), rfl⟩

theorem witness_InputTakesHeadOrPauses :
    ({ beforePause with inQ := [7, 8] } : State).inQ = 7 :: [8] ∧ (machineAt 1 0 []).inQ = [] ∧ (machineAt 1 0 []).pc ≠ 0 := by
  decide

theorem witness_StepRunsDecodedInstruction :
    let s := machineAt 4094 0 [(4094, 0x7000)]
    s.runState = .running ∧ s.pc ≠ 4095 ∧ Memory.read s.mem s.pc.toNat = 0x7000 ∧ decode 0x7000 = .halt 0 := by decide

theorem witness_FetchAtLastAddressFails :
    let s := machineAt 4095 0 [(4095, 0xFFFF)]
    s.runState = .running ∧ s.pc = 4095 ∧ Memory.read s.mem 4095 = 0xFFFF := by decide

theorem witness_StepRefusedExactlyOutsideRunning :
    State.reset.runState ≠ .running ∧ paused.runState ≠ .running ∧ (stop paused).runState ≠ .running ∧
    beforePause.runState = .running := by decide

/-- `step s = next t`, the hypothesis of the statements about every step: a step that pauses, one that halts, one that
outputs, one that takes a queued value. -/
theorem witness_step_next :
    step beforePause = .next paused ∧ (∃ t, step (machineAt 0 0 [(0, 0x7000)]) = .next t) ∧
    (∃ t, step (machineAt 0 7 [(0, 0x6000)]) = .next t ∧ t.outLog = [7]) ∧
    (∃ t, step { beforePause with inQ := [7] } = .next t ∧ t.ac = 7) :=
  ⟨next_after (by decide), ⟨_, next_after (by decide)⟩, ⟨_, next_after (by decide), by decide⟩,
    ⟨_, next_after (by decide), by decide⟩⟩

/-- `exec i s = next t` for an instruction that writes AC and for one that does not, INPUT with an empty queue among them,
and for each of the four that do not read AC. -/
theorem witness_AccumulatorWritersAndNonReaders :
    [Instr.jns 3, .halt 0, .jump 4095, .jumpi 3, .input 0, .store 3, .skipcond 1 0].all
      (fun i => isNext (exec i (machineAt 1 5 []))) = true ∧ (machineAt 1 5 []).inQ = [] := by decide

/-- Steps with and without a listed error. -/
theorem witness_StepRaisesExactlyListedErrors :
    (machineAt 0 0 [(0, 0xF000)]).stepError = some (.unknownOpcode 15) ∧
    isNext (step (machineAt 0 0 [(0, 0xF000)])) = true ∧ beforePause.stepError = none ∧ isNext (step beforePause) = true := by
  decide

/-- A failing fetch of JNS 4095 at 4095, an opcode 15, and JNS 4095 executed at 16 and at the last address that executes. -/
theorem witness_FailingStepKeepsEarlierWrites :
    ([machineAt 4095 0 [(4095, 0x0FFF)], machineAt 16 0 [(16, 0xF000)], machineAt 16 0 [(16, 0x0FFF)],
      machineAt 4094 0 [(4094, 0x0FFF)]].all fun s => s.stepError.isSome && isNext (step s) && Memory.wf s.mem) = true ∧
    ([machineAt 16 0 [(16, 0x0FFF)], machineAt 4094 0 [(4094, 0x0FFF)]].all fun s =>
      s.pc != 4095 && decide (decode (after (step s)).ir = .jns 4095)) = true ∧
    decode (after (step (machineAt 16 0 [(16, 0xF000)]))).ir ≠ .jns 4095 := by decide

/-- STORE 4094 at 4093, and a STOREI there whose pointer is 4094. -/
theorem witness_StoredWordIsExecutedNext :
    let s := machineAt 4093 0x6000 [(4093, 0x2FFE)]
    let u := machineAt 4093 0x6000 [(16, 4094), (4093, 0xE010)]
    (s.runState = .running ∧ Memory.wf s.mem = true ∧ s.pc ≠ 4095 ∧ s.pc + 1 ≠ 4095 ∧
      decode (Memory.read s.mem s.pc.toNat) = .store (s.pc + 1)) ∧
    (u.runState = .running ∧ Memory.wf u.mem = true ∧ u.pc ≠ 4095 ∧ u.pc + 1 ≠ 4095 ∧
      decode (Memory.read u.mem u.pc.toNat) = .storei 16 ∧
      (Memory.read u.mem (16 : Addr).toNat).toNat = u.pc.toNat + 1) := by decide

/-- Each instruction of the four frames answers a next state, with and without a fatal error. -/
theorem witness_frames :
    ([Instr.load 3, .add 3, .subt 3, .clear 0, .addi 16, .loadi 17, .jns 4095, .store 3, .storei 16, .storei 17].all
      fun i => isNext (exec i pointers)) = true ∧
    ([Instr.skipcond 3 0, .skipcond 1 0, .jump 3, .jumpi 17, .input 0, .output 0, .halt 0, .illegal 0].all
      fun i => isNext (exec i pointers)) = true ∧
    pointers.inQ = [] ∧ pointers.pc ≠ 0 ∧ ({ pointers with inQ := [7] } : State).inQ ≠ [] := by decide

/-- A STOREI, and a fetch at 4095 that stores nothing. -/
theorem witness_StepWritesOnlyStoreAddress :
    let s := machineAt 0 9 [(0, 0xE010), (16, 4095)]
    isNext (step s) = true ∧ storeAddr (decode (Memory.read s.mem s.pc.toNat)) s = some 4095 ∧
    isNext (step (machineAt 4095 0 [])) = true ∧ (machineAt 4095 0 []).pc = 4095 := by decide

theorem witness_InputQueueIsFirstInFirstOut :
    isNext (step { beforePause with inQ := [7] }) = true ∧ isNext (setInput [0, 65535] paused) = true := by decide

theorem witness_OutputLogOnlyGrowsByOutput :
    isNext (step (machineAt 0 7 [(0, 0x6000)])) = true ∧ isNext (load keepQueue [65535, 0] paused) = true ∧
    Command.stop ≠ .step := by decide

/-- An image of 4096 words, the longest, and the words 0 and 65535. -/
theorem witness_LoadResetsEngine :
    (List.replicate 4096 (65535 : Int)).length ≤ 4096 ∧ (∀ v ∈ List.replicate 4096 (65535 : Int), 0 ≤ v ∧ v ≤ 65535) ∧
    (∀ v ∈ [(0 : Int)], 0 ≤ v ∧ v ≤ 65535) ∧ keepQueue.inputQueueOnLoad = .keep ∧ clearQueue.inputQueueOnLoad = .clear :=
  ⟨by rw [List.length_replicate], fun v hv => by rw [List.eq_of_mem_replicate hv]; decide, by decide, rfl, rfl⟩

theorem witness_LoadRefusesBadImage :
    4096 < (List.replicate 4097 (0 : Int)).length ∧ (∃ v ∈ [(65536 : Int)], v < 0 ∨ 65535 < v) ∧
    (∃ v ∈ [(-1 : Int)], v < 0 ∨ 65535 < v) :=
  ⟨by rw [List.length_replicate]; decide, by decide, by decide⟩

theorem witness_SetInputAppendsWholeBatchOrNothing :
    (∀ v ∈ [(0 : Int), 65535], 0 ≤ v ∧ v ≤ 65535) ∧ (∃ v ∈ [(1 : Int), 65536], v < 0 ∨ 65535 < v) := by decide

theorem witness_ResumeAndStopFollowTransitionTable :
    paused.runState = .paused ∧ beforePause.runState ≠ .paused ∧ paused.runState ≠ .halted ∧
    (stop paused).runState = .halted := by decide

theorem witness_HaltedIsLeftOnlyByLoad :
    (stop paused).runState = .halted ∧ (∀ image, Command.step ≠ .load image) ∧ (∀ vs, Command.step ≠ .setInput vs) :=
  ⟨by decide, fun _ h => Command.noConfusion h, fun _ h => Command.noConfusion h⟩

theorem witness_InspectionReturnsSnapshotUnchanged :
    (inspect beforePause).running = true ∧ beforePause.runState = .running ∧ (4095 : Nat) ≤ 4095 := by decide

theorem witness_PausedInputCompletesAfterResume :
    paused.Inv ∧ paused.runState = .paused ∧ (∀ x ∈ (65535 : Int) :: [0], 0 ≤ x ∧ x ≤ 65535) :=
  ⟨paused_inv, by decide, by decide⟩

theorem witness_AssembledProgramLoads :
    ∃ words table, Assembler.assemble keepQueue "x, dec 5\nload x\noutput\nhalt".toList = .ok (words, table) ∧
      table ≠ [] := ⟨_, _, rfl, by decide⟩

/-- An instruction line with a label operand at 4095, and a data line of 65535. -/
theorem witness_AssembledInstructionIsWellFormed :
    let table : Assembler.SymbolTable := [(['e', 'n', 'd'], 4095)]
    (∀ e ∈ table, e.2 ≤ 4095) ∧
    Assembler.withoutLabel table (Assembler.tokens "jump end".toList) = "jump".toList :: ["end".toList] ∧
    Assembler.findMnemonic "jump".toList = some ⟨['j', 'u', 'm', 'p'], 9, .address⟩ ∧
    Assembler.assembleLine .ten table "jump end".toList = .ok 0x9FFF ∧
    Assembler.findMnemonic "dec".toList = some ⟨['d', 'e', 'c'], 0, .decimal⟩ ∧
    Assembler.assembleLine .ten table "dec 65535".toList = .ok 65535 :=
  ⟨by decide, by decide, by decide, rfl, by decide, rfl⟩

end Sys2Proof.Tests
end

section
/-! PROOFS. The statement of spec/00_scope.md R10: what the one update a width-checked write makes, `State.setReg`, gives
each register, and that it touches nothing else. -/

namespace Sys2Proof.Machine

/-! ## What setReg writes -/

theorem toNat_ofInt_of_fits {n : Nat} {v : Int} (h0 : 0 ≤ v) (h1 : v ≤ 2 ^ n - 1) :
    ((BitVec.ofInt n v).toNat : Int) = v := by
  have hmod : v % (2 ^ n : Nat) = v := Int.emod_eq_of_lt h0 (by push_cast; omega)
  rw [BitVec.toNat_ofInt, hmod, Int.toNat_of_nonneg h0]

theorem State.reg_setReg_same {r : Reg} {v : Int} (s : State) (h0 : 0 ≤ v) (h1 : v ≤ 2 ^ r.width - 1) :
    ((s.setReg r v).reg r : Int) = v := by
  cases r <;> exact toNat_ofInt_of_fits h0 h1

/-! ## What setReg leaves unchanged -/

theorem State.reg_setReg_of_ne {r q : Reg} (s : State) (v : Int) (h : q ≠ r) : (s.setReg r v).reg q = s.reg q := by
  cases r <;> cases q
  case ac.ac | ir.ir | mbr.mbr | mar.mar | pc.pc => exact absurd rfl h
  all_goals rfl

@[simp] theorem State.setReg_mem (s : State) (r : Reg) (v : Int) : (s.setReg r v).mem = s.mem := by
  cases r <;> rfl

@[simp] theorem State.setReg_inQ (s : State) (r : Reg) (v : Int) : (s.setReg r v).inQ = s.inQ := by
  cases r <;> rfl

@[simp] theorem State.setReg_outLog (s : State) (r : Reg) (v : Int) : (s.setReg r v).outLog = s.outLog := by
  cases r <;> rfl

theorem sameControl_setReg (s : State) (r : Reg) (v : Int) : SameControl s (s.setReg r v) := by
  cases r <;> exact ⟨rfl, rfl, rfl, rfl⟩

/-! ## The width-checked write -/

/-- Settles O5: out of range, the write is a raise; in range, it goes on from `setReg`. -/
theorem registerWriteIsWidthChecked : Obligations.RegisterWriteIsWidthChecked := by
  refine ⟨⟨rfl, rfl, rfl, rfl, rfl⟩, fun r v s k => ⟨fun hout => ?raises, fun hin => ?writes⟩⟩
  case raises =>
    rw [writeReg_of_not_fits hout]
    exact haltsWith_raise _ s
  case writes =>
    have h0 : 0 ≤ v := by omega
    have h1 : v ≤ 2 ^ r.width - 1 := by omega
    exact ⟨s.setReg r v, writeReg_of_fits h0 h1, s.reg_setReg_same h0 h1, fun _ hq => s.reg_setReg_of_ne v hq,
      s.setReg_mem r v, s.setReg_inQ r v, s.setReg_outLog r v, sameControl_setReg s r v⟩

end Sys2Proof.Machine
end

section
/-! PROOFS. The statements of spec/30_encoding.md R50 and R51: the two fields of a word as numbers, the word of two fields as
a sum and as a shift, and the operation each opcode selects. -/

namespace Sys2Proof

/-! ## Fields as numbers -/

theorem toNat_opcodeOf (w : Word) : (opcodeOf w).toNat = w.toNat / 4096 := by
  have hw : w.toNat / 4096 < 16 := by have := w.isLt; omega
  calc (opcodeOf w).toNat = w.toNat >>> 12 % 2 ^ 4 := BitVec.extractLsb'_toNat 12 4 w
    _ = w.toNat / 4096 % 16 := by rw [Nat.shiftRight_eq_div_pow]
    _ = w.toNat / 4096 := Nat.mod_eq_of_lt hw

theorem toNat_operandOf (w : Word) : (operandOf w).toNat = w.toNat % 4096 := BitVec.extractLsb'_toNat 0 12 w

theorem toNat_append_eq_mul_add {m n : Nat} (a : BitVec m) (b : BitVec n) :
    (a ++ b).toNat = a.toNat * 2 ^ n + b.toNat := by
  rw [BitVec.toNat_append, ← Nat.shiftLeft_add_eq_or_of_lt b.isLt, Nat.shiftLeft_eq]

/-! ## Selection by opcode -/

/-- R55: executing opcode 15 is a raise, whatever the operand bits. -/
theorem Machine.haltsWith_exec_illegal (x : Addr) (s : Machine.State) :
    Machine.HaltsWith (Machine.exec (.illegal x) s) (.unknownOpcode 15) s :=
  Machine.haltsWith_raise (.unknownOpcode 15) s

/-- Settles O8: the fields are quotient and remainder by 4096, and a word given as its two fields decodes by its opcode. -/
theorem decoderSelectsOperationByOpcode : Obligations.DecoderSelectsOperationByOpcode := by
  refine ⟨fun w => ⟨toNat_opcodeOf w, toNat_operandOf w⟩, fun x => ?_, Machine.haltsWith_exec_illegal⟩
  have hskip : ∃ c g, (c ++ g : BitVec 12) = x ∧ decode (8#4 ++ x) = .skipcond c g :=
    ⟨conditionOf x, belowCondition x, conditionOf_append_belowCondition x, decode_append 8#4 x⟩
  exact ⟨decode_append 0#4 x, decode_append 1#4 x, decode_append 2#4 x, decode_append 3#4 x, decode_append 4#4 x,
    decode_append 5#4 x, decode_append 6#4 x, decode_append 7#4 x, hskip, decode_append 9#4 x, decode_append 10#4 x,
    decode_append 11#4 x, decode_append 12#4 x, decode_append 13#4 x, decode_append 14#4 x, decode_append 15#4 x⟩

/-! ## The encoded word -/

theorem append_eq_shiftLeft_or (op : BitVec 4) (x : Addr) : op ++ x = (op.setWidth 16 <<< 12) ||| x.setWidth 16 :=
  (BitVec.setWidth_eq _).symm.trans BitVec.setWidth_append_eq_shiftLeft_setWidth_or

/-- Settles O9: an encoded word is its opcode before its operand, and so a sum, a shift and the two fields. -/
theorem encodedWordIsOpcodeTimes4096PlusOperand : Obligations.EncodedWordIsOpcodeTimes4096PlusOperand := fun i =>
  ⟨toNat_append_eq_mul_add (opcodeFor i) (operandFor i), append_eq_shiftLeft_or (opcodeFor i) (operandFor i),
    opcodeOf_append (opcodeFor i) (operandFor i), operandOf_append (opcodeFor i) (operandFor i)⟩

end Sys2Proof
end

section
/-! PROOFS. The statements of spec/41_control.md R90, R92 and R93: the execute phase of JNS, JUMP and JUMPI, said once per
case, and the three obligations from it. -/

namespace Sys2Proof.Machine

/-! ## JNS -/

/-- The memory after the write of `JNS x`: the return address PC, widened with zeros, in cell `x` (R90). -/
def jnsMemory (x : Addr) (s : State) : Memory := Memory.write s.mem x.toNat (s.pc.setWidth 16)

theorem toNat_read_jnsMemory_same {x : Addr} {s : State} (h : Memory.wf s.mem = true) :
    (Memory.read (jnsMemory x s) x.toNat).toNat = s.pc.toNat := by
  rw [jnsMemory, Memory.read_write_same h]
  exact BitVec.toNat_setWidth_of_le (by decide)

theorem read_jnsMemory_other {x : Addr} {s : State} {a : Nat} (h : a ≠ x.toNat) :
    Memory.read (jnsMemory x s) a = Memory.read s.mem a :=
  Memory.read_write_other h

/-- The write of JNS comes first and never fails; only the new PC can be out of range. -/
theorem exec_jns_eq_writeReg (x : Addr) (s : State) :
    exec (.jns x) s = writeReg .pc (x.toNat + 1) { s with mem := jnsMemory x s } .next := by
  rw [exec, execJns, writeDirect_eq, directAddr_eq, jnsMemory]

theorem exec_jns_of_ne_last {x : Addr} {s : State} (h : x ≠ 4095) :
    exec (.jns x) s = .next { s with mem := jnsMemory x s, pc := x + 1 } := by
  rw [exec_jns_eq_writeReg, writeReg_pc_succ h]

theorem exec_jns_last (s : State) :
    exec (.jns 4095) s = raise (.rangeError (.reg .pc)) { s with mem := jnsMemory 4095 s } := by
  rw [exec_jns_eq_writeReg, writeReg_pc_succ_last]

/-- JNS does not read AC: with another AC the answer is the same but for AC. -/
theorem exec_jns_with_ac {x : Addr} {s t : State} (v : Word) (h : exec (.jns x) s = .next t) :
    exec (.jns x) { s with ac := v } = .next { t with ac := v } := by
  by_cases hx : x = 4095
  · subst hx
    rw [exec_jns_last] at h ⊢
    cases h
    rfl
  · rw [exec_jns_of_ne_last hx] at h ⊢
    cases h
    rfl

/-- Settles O23: the bound memory is `jnsMemory`, and X = 4095 is the one case in which the new PC does not fit. -/
theorem jnsStoresReturnAddress : Obligations.JnsStoresReturnAddress := by
  refine ⟨decode_append 0#4, fun x s => ⟨jnsMemory x s, toNat_read_jnsMemory_same, fun _ => read_jnsMemory_other,
    fun hx => ?continues, fun hx => ?halts, fun v _ => exec_jns_with_ac v⟩⟩
  case continues => exact ⟨_, exec_jns_of_ne_last hx, addr_toNat_succ hx, rfl⟩
  case halts =>
    subst hx
    rw [exec_jns_last]
    exact haltsWith_raise _ _

/-! ## JUMP -/

theorem exec_jump (x : Addr) (s : State) : exec (.jump x) s = .next { s with pc := x } := writeReg_pc

/-- Settles O25: a 12-bit operand always fits PC. -/
theorem jumpSetsPc : Obligations.JumpSetsPc := ⟨decode_append 9#4, exec_jump⟩

/-! ## JUMPI -/

/-- The read of JUMPI never fails; only the word read can be out of range for PC. -/
theorem exec_jumpi_eq_writeReg (x : Addr) (s : State) :
    exec (.jumpi x) s = writeReg .pc (Memory.read s.mem x.toNat).toNat s .next := by
  rw [exec, execJumpi, readDirect_eq, directAddr_eq]

theorem exec_jumpi_of_le {x : Addr} {s : State} (h : (Memory.read s.mem x.toNat).toNat ≤ 4095) :
    exec (.jumpi x) s = .next { s with pc := (Memory.read s.mem x.toNat).setWidth 12 } := by
  rw [exec_jumpi_eq_writeReg, writeReg_pc_word h]

theorem exec_jumpi_of_gt {x : Addr} {s : State} (h : 4095 < (Memory.read s.mem x.toNat).toNat) :
    exec (.jumpi x) s = raise (.rangeError (.reg .pc)) s := by
  rw [exec_jumpi_eq_writeReg, writeReg_pc_word_large h]

theorem toNat_setWidth_addr {w : Word} (h : w.toNat ≤ 4095) : (w.setWidth 12).toNat = w.toNat :=
  (BitVec.toNat_setWidth 12 w).trans (Nat.mod_eq_of_lt (Nat.lt_succ_of_le h))

/-- Settles O26: the word read is a jump target exactly when it fits PC's 12 bits. -/
theorem jumpiJumpsThroughPointer : Obligations.JumpiJumpsThroughPointer := by
  refine ⟨decode_append 12#4, fun x s => ⟨fun hfits => ?jumps, fun hlarge => ?halts⟩⟩
  case jumps => exact ⟨_, exec_jumpi_of_le hfits, toNat_setWidth_addr hfits, rfl⟩
  case halts =>
    rw [exec_jumpi_of_gt hlarge]
    exact haltsWith_raise _ s

end Sys2Proof.Machine
end

section
/-! PROOFS. The statements of spec/42_memory_arith.md R96 to R99: the execute phase of LOAD, STORE, ADD and SUBT, said once
per case, and the four obligations from it. A direct operand never faults (R94), so only the checked sum and difference of
R95 can raise. -/

namespace Sys2Proof.Machine

/-! ## LOAD -/

/-- R96: the word read always fits AC. -/
theorem exec_load (x : Addr) (s : State) : exec (.load x) s = .next { s with ac := Memory.read s.mem x.toNat } := by
  rw [exec, execLoad, readDirect_eq, directAddr_eq, writeReg_ac]

/-- Settles O15: the read never faults and the word read always fits. -/
theorem loadCopiesWordToAc : Obligations.LoadCopiesWordToAc := ⟨decode_append 1#4, exec_load⟩

/-! ## STORE -/

theorem exec_store (x : Addr) (s : State) :
    exec (.store x) s = .next { s with mem := Memory.write s.mem x.toNat s.ac } := by
  rw [exec, execStore, writeDirect_eq, directAddr_eq]

/-- Settles O16: the next state is one memory write away, and a write is read back in its own cell alone. -/
theorem storeWritesAcToCell : Obligations.StoreWritesAcToCell :=
  ⟨decode_append 2#4, fun x s => ⟨_, exec_store x s, rfl, Memory.read_write_same, fun _ => Memory.read_write_other⟩⟩

/-! ## ADD -/

theorem exec_add_eq_addToAc (x : Addr) (s : State) :
    exec (.add x) s = addToAc (Memory.read s.mem x.toNat) s .next := by
  rw [exec, execAdd, readDirect_eq, directAddr_eq]

theorem exec_add_of_fits {x : Addr} {s : State} (h : s.ac.toNat + (Memory.read s.mem x.toNat).toNat ≤ 65535) :
    exec (.add x) s = .next { s with ac := s.ac + Memory.read s.mem x.toNat } := by
  rw [exec_add_eq_addToAc, addToAc_of_fits h]

theorem exec_add_of_overflow {x : Addr} {s : State} (h : 65535 < s.ac.toNat + (Memory.read s.mem x.toNat).toNat) :
    exec (.add x) s = raise .arithmeticOverflow s := by
  rw [exec_add_eq_addToAc, addToAc_of_overflow h]

/-- Settles O17: a sum that fits 16 bits does not wrap, and any other is a raise. -/
theorem addIsExactOrOverflows : Obligations.AddIsExactOrOverflows := by
  refine ⟨decode_append 3#4, fun x s => ⟨fun hfits => ?adds, fun hover => ?halts⟩⟩
  case adds => exact ⟨_, exec_add_of_fits hfits, BitVec.toNat_add_of_lt (Nat.lt_succ_of_le hfits), rfl⟩
  case halts =>
    rw [exec_add_of_overflow hover]
    exact haltsWith_raise _ s

/-! ## SUBT -/

theorem exec_subt_eq_subFromAc (x : Addr) (s : State) :
    exec (.subt x) s = subFromAc (Memory.read s.mem x.toNat) s .next := by
  rw [exec, execSubt, readDirect_eq, directAddr_eq]

theorem exec_subt_of_fits {x : Addr} {s : State} (h : (Memory.read s.mem x.toNat).toNat ≤ s.ac.toNat) :
    exec (.subt x) s = .next { s with ac := s.ac - Memory.read s.mem x.toNat } := by
  rw [exec_subt_eq_subFromAc, subFromAc_of_fits h]

theorem exec_subt_of_underflow {x : Addr} {s : State} (h : s.ac.toNat < (Memory.read s.mem x.toNat).toNat) :
    exec (.subt x) s = raise .arithmeticUnderflow s := by
  rw [exec_subt_eq_subFromAc, subFromAc_of_underflow h]

/-- Settles O18: a difference that is not negative does not wrap, and any other is a raise. -/
theorem subtIsExactOrUnderflows : Obligations.SubtIsExactOrUnderflows := by
  refine ⟨decode_append 4#4, fun x s => ⟨fun hfits => ?subtracts, fun hunder => ?halts⟩⟩
  case subtracts => exact ⟨_, exec_subt_of_fits hfits, BitVec.toNat_sub_of_le hfits, rfl⟩
  case halts =>
    rw [exec_subt_of_underflow hunder]
    exact haltsWith_raise _ s

end Sys2Proof.Machine
end

section
/-! PROOFS. The statements of spec/30_encoding.md R50 to R57 about single words: the round trips between words and
instructions, and the decoder against the opcode table. Both rest on one fact: a word is its opcode before its operand, and
an instruction keeps both. -/

namespace Sys2Proof

/-! ## The round trips -/

theorem instrOf_opcodeFor (i : Instr) : instrOf (opcodeFor i).toNat (operandFor i) = i := by
  cases i
  case skipcond c g => exact congrArg₂ Instr.skipcond (conditionOf_append c g) (belowCondition_append c g)
  all_goals rfl

@[simp] theorem opcodeFor_instrOf (op : BitVec 4) (x : Addr) : opcodeFor (instrOf op.toNat x) = op := by
  rcases opcode_cases op with rfl | rfl | rfl | rfl | rfl | rfl | rfl | rfl | rfl | rfl | rfl | rfl | rfl | rfl | rfl | rfl
  all_goals rfl

/-- Only SKIPCOND splits its operand, into two fields that are put together again. -/
@[simp] theorem operandFor_instrOf (op : BitVec 4) (x : Addr) : operandFor (instrOf op.toNat x) = x := by
  rcases opcode_cases op with rfl | rfl | rfl | rfl | rfl | rfl | rfl | rfl | rfl | rfl | rfl | rfl | rfl | rfl | rfl | rfl
  exacts [rfl, rfl, rfl, rfl, rfl, rfl, rfl, rfl, conditionOf_append_belowCondition x, rfl, rfl, rfl, rfl, rfl, rfl, rfl]

@[simp] theorem opcodeFor_decode (w : Word) : opcodeFor (decode w) = opcodeOf w := opcodeFor_instrOf _ _

/-- Settles O10: a word put together from an instruction's two fields decodes by them. -/
theorem decodeEncodeRoundTrip : Obligations.DecodeEncodeRoundTrip := fun i =>
  (decode_append (opcodeFor i) (operandFor i)).trans (instrOf_opcodeFor i)

/-- Settles O11: an instruction decoded from a word keeps both fields of the word. -/
theorem encodeDecodeRoundTrip : Obligations.EncodeDecodeRoundTrip := by
  intro w
  rw [encode, decode, opcodeFor_instrOf, operandFor_instrOf, opcodeOf_append_operandOf]

/-! ## The opcode table -/

/-- The row of the opcode table for an opcode: the mask keeps the opcode bits alone. -/
def opcodeRow (op : BitVec 4) : OpcodeRow := ⟨(instrOf op.toNat 0).mnemonic, op ++ 0#12, 15#4 ++ 0#12⟩

theorem mem_opcodeTable_iff (row : OpcodeRow) : row ∈ opcodeTable ↔ ∃ op, row = opcodeRow op := by
  constructor
  · revert row
    decide
  · rintro ⟨op, rfl⟩
    revert op
    decide

theorem mnemonic_instrOf (op : BitVec 4) (x : Addr) : (instrOf op.toNat x).mnemonic = (opcodeRow op).mnemonic := by
  rcases opcode_cases op with rfl | rfl | rfl | rfl | rfl | rfl | rfl | rfl | rfl | rfl | rfl | rfl | rfl | rfl | rfl | rfl
  all_goals rfl

/-- No two rows share a mnemonic. -/
theorem opcodeRow_mnemonic_inj {op op' : BitVec 4} : (opcodeRow op).mnemonic = (opcodeRow op').mnemonic ↔ op = op' := by
  revert op op'
  decide

theorem mnemonic_decode (w : Word) : (decode w).mnemonic = (opcodeRow (opcodeOf w)).mnemonic := mnemonic_instrOf _ _

/-- A word matches a row's pattern under its mask exactly when it has the row's opcode. -/
theorem matches_opcodeRow_iff (w : Word) (op : BitVec 4) :
    w &&& (opcodeRow op).mask = (opcodeRow op).pattern ↔ opcodeOf w = op := by
  have hmasked : w &&& (15#4 ++ 0#12) = opcodeOf w ++ 0#12 := by
    have hones : opcodeOf w &&& 15#4 = opcodeOf w := BitVec.and_allOnes
    calc w &&& (15#4 ++ 0#12) = (opcodeOf w ++ operandOf w) &&& (15#4 ++ 0#12) := by rw [opcodeOf_append_operandOf]
      _ = (opcodeOf w &&& 15#4) ++ (operandOf w &&& 0#12) := BitVec.and_append
      _ = opcodeOf w ++ 0#12 := by rw [hones, BitVec.and_zero]
  refine (hmasked ▸ Iff.rfl : _ ↔ opcodeOf w ++ 0#12 = op ++ 0#12).trans ⟨fun h => ?_, fun h => h ▸ rfl⟩
  simpa using congrArg opcodeOf h

/-- Settles O12: matching a row and reading its mnemonic are both having its opcode. -/
theorem decoderFollowsOpcodeTable : Obligations.DecoderFollowsOpcodeTable := by
  refine ⟨fun row hrow w => ?_, fun w => ⟨opcodeRow (opcodeOf w), ?_, ?_, fun row' hrow' hmatch => ?_⟩⟩
  · obtain ⟨op, rfl⟩ := (mem_opcodeTable_iff row).mp hrow
    rw [matches_opcodeRow_iff, mnemonic_decode, opcodeRow_mnemonic_inj]
  · exact (mem_opcodeTable_iff _).mpr ⟨_, rfl⟩
  · exact (matches_opcodeRow_iff w _).mpr rfl
  · obtain ⟨op, rfl⟩ := (mem_opcodeTable_iff row').mp hrow'
    rw [(matches_opcodeRow_iff w op).mp hmatch]

/-- Settles O13: seven literal words. -/
theorem sampleWordsDecode : Obligations.SampleWordsDecode := by
  unfold Obligations.SampleWordsDecode
  decide

end Sys2Proof
end

section
/-! PROOFS. The execute phase of the instructions the sections above leave, said once per case (spec/42_memory_arith.md R100
to R103, spec/41_control.md R91, spec/43_io_halt.md R104 to R106), and the obligations about one operation or one
instruction from it. -/

namespace Sys2Proof.Machine

/-! ## The shared operations -/

/-- Settles O6: the decoder passes an address below 4096 on to the cell itself, and raises for any other. -/
theorem addressDecoderSelectsOneCell : Obligations.AddressDecoderSelectsOneCell := by
  refine fun a v s => ⟨fun hin => ?selects, fun hout k k' => ?raises⟩
  case selects =>
    have ha : a < memSize := Nat.lt_succ_of_le hin
    exact ⟨fun _ => memRead_of_lt ha, { s with mem := Memory.write s.mem a v }, fun _ => memWrite_of_lt ha,
      fun _ => Memory.read_write_other, Memory.read_write_same, rfl⟩
  case raises =>
    have ha : memSize ≤ a := hout
    rw [memRead_of_ge ha, memWrite_of_ge ha]
    exact ⟨haltsWith_raise _ s, haltsWith_raise _ s⟩

/-- Settles O7: the raised state, field by field. -/
theorem raiseHaltsAndRecordsError : Obligations.RaiseHaltsAndRecordsError :=
  ⟨fun e s => ⟨haltsWith_raise e s, s.raised e, rfl, rfl, rfl, rfl⟩, fun _ => rfl, rfl, rfl, fun _ => rfl, fun _ => rfl⟩

/-- Settles O14: no execute rule takes the ignored bits into its effect. -/
theorem ignoredBitsNeverMatter : Obligations.IgnoredBitsNeverMatter := by
  intro i s
  cases i
  all_goals exact ⟨rfl, rfl⟩

/-! ## CLEAR -/

theorem exec_clear (g : BitVec 12) (s : State) : exec (.clear g) s = .next { s with ac := 0 } :=
  writeReg_ac (w := 0)

/-- Settles O19: 0 always fits AC. -/
theorem clearZeroesAc : Obligations.ClearZeroesAc := ⟨decode_append 10#4, exec_clear⟩

/-! ## The pointer forms: ADDI, LOADI, STOREI -/

theorem exec_addi_of_pointer {x : Addr} {s : State} (hp : indirectAddr s x ≤ 4095) :
    exec (.addi x) s = addToAc (Memory.read s.mem (indirectAddr s x)) s .next :=
  readIndirect_of_lt (Nat.lt_succ_of_le hp)

theorem exec_addi_of_fits {x : Addr} {s : State} (hp : indirectAddr s x ≤ 4095)
    (h : s.ac.toNat + (Memory.read s.mem (indirectAddr s x)).toNat ≤ 65535) :
    exec (.addi x) s = .next { s with ac := s.ac + Memory.read s.mem (indirectAddr s x) } := by
  rw [exec_addi_of_pointer hp, addToAc_of_fits h]

theorem exec_addi_of_overflow {x : Addr} {s : State} (hp : indirectAddr s x ≤ 4095)
    (h : 65535 < s.ac.toNat + (Memory.read s.mem (indirectAddr s x)).toNat) :
    exec (.addi x) s = raise .arithmeticOverflow s := by
  rw [exec_addi_of_pointer hp, addToAc_of_overflow h]

theorem exec_addi_of_large_pointer {x : Addr} {s : State} (hp : 4095 < indirectAddr s x) :
    exec (.addi x) s = raise (.rangeError .addr) s :=
  readIndirect_of_ge hp

/-- Settles O20: the pointer is checked first, then the sum. -/
theorem addiAddsThroughPointer : Obligations.AddiAddsThroughPointer := by
  refine ⟨decode_append 11#4, fun x s => ⟨fun hp hfits => ?adds, fun hp hover => ?overflows, fun hp => ?halts⟩⟩
  case adds => exact ⟨_, exec_addi_of_fits hp hfits, BitVec.toNat_add_of_lt (Nat.lt_succ_of_le hfits), rfl⟩
  case overflows =>
    rw [exec_addi_of_overflow hp hover]
    exact haltsWith_raise _ s
  case halts =>
    rw [exec_addi_of_large_pointer hp]
    exact haltsWith_raise _ s

theorem exec_loadi_of_pointer {x : Addr} {s : State} (hp : indirectAddr s x ≤ 4095) :
    exec (.loadi x) s = .next { s with ac := Memory.read s.mem (indirectAddr s x) } := by
  rw [exec, execLoadi, readIndirect_of_lt (Nat.lt_succ_of_le hp), writeReg_ac]

theorem exec_loadi_of_large_pointer {x : Addr} {s : State} (hp : 4095 < indirectAddr s x) :
    exec (.loadi x) s = raise (.rangeError .addr) s :=
  readIndirect_of_ge hp

/-- Settles O21: only the pointer can be out of range. -/
theorem loadiLoadsThroughPointer : Obligations.LoadiLoadsThroughPointer := by
  refine ⟨decode_append 13#4, fun x s => ⟨exec_loadi_of_pointer, fun hp => ?halts⟩⟩
  case halts =>
    rw [exec_loadi_of_large_pointer hp]
    exact haltsWith_raise _ s

theorem exec_storei_of_pointer {x : Addr} {s : State} (hp : indirectAddr s x ≤ 4095) :
    exec (.storei x) s = .next { s with mem := Memory.write s.mem (indirectAddr s x) s.ac } :=
  writeIndirect_of_lt (Nat.lt_succ_of_le hp)

theorem exec_storei_of_large_pointer {x : Addr} {s : State} (hp : 4095 < indirectAddr s x) :
    exec (.storei x) s = raise (.rangeError .addr) s :=
  writeIndirect_of_ge hp

/-- Settles O22: below 4096 the next state is one memory write away; above, the raise comes before the write. -/
theorem storeiStoresThroughPointer : Obligations.StoreiStoresThroughPointer := by
  refine ⟨decode_append 14#4, fun x s => ⟨fun hp => ?stores, fun hp => ?halts⟩⟩
  case stores =>
    exact ⟨_, exec_storei_of_pointer hp, rfl, Memory.read_write_same, fun _ => Memory.read_write_other⟩
  case halts =>
    rw [exec_storei_of_large_pointer hp]
    exact haltsWith_raise _ s

/-! ## SKIPCOND -/

theorem signSet_iff {a : Word} : signSet a = true ↔ 32768 ≤ a.toNat := by
  simp [signSet, BitVec.msb_eq_decide]

theorem isZero_iff {a : Word} : isZero a = true ↔ a.toNat = 0 := by
  simp [isZero, ← BitVec.toNat_inj]

theorem isPositive_iff {a : Word} : isPositive a = true ↔ 1 ≤ a.toNat ∧ a.toNat ≤ 32767 := by
  have hzero : (0 : Word).toNat = 0 := rfl
  simp only [isPositive, BitVec.msb_eq_decide, Bool.and_eq_true, Bool.not_eq_true', decide_eq_false_iff_not,
    bne_iff_ne, ne_eq, ← BitVec.toNat_inj, hzero]
  omega

/-- The skips of R91, with AC as a number. -/
theorem skipTaken_eq_true_iff {c : BitVec 2} {a : Word} :
    skipTaken c a = some true ↔
      (c = 0 ∧ 32768 ≤ a.toNat) ∨ (c = 1 ∧ a.toNat = 0) ∨ (c = 2 ∧ 1 ≤ a.toNat ∧ a.toNat ≤ 32767) := by
  have hc : c = 0 ∨ c = 1 ∨ c = 2 ∨ c = 3 := by revert c; decide
  rcases hc with rfl | rfl | rfl | rfl
  all_goals simp [skipTaken, signSet_iff, isZero_iff, isPositive_iff]

theorem exec_skipcond_skip {c : BitVec 2} {g : BitVec 10} {s : State} (h : skipTaken c s.ac = some true)
    (hpc : s.pc ≠ 4095) : exec (.skipcond c g) s = .next { s with pc := s.pc + 1 } := by
  simp only [exec, execSkipcond, h, writeReg_pc_succ hpc]

theorem exec_skipcond_skip_last {c : BitVec 2} {g : BitVec 10} {s : State} (h : skipTaken c s.ac = some true)
    (hpc : s.pc = 4095) : exec (.skipcond c g) s = raise (.rangeError (.reg .pc)) s := by
  simp only [exec, execSkipcond, h, hpc, writeReg_pc_succ_last]

theorem exec_skipcond_stay {c : BitVec 2} {g : BitVec 10} {s : State} (hc : c ≠ 3)
    (h : skipTaken c s.ac ≠ some true) : exec (.skipcond c g) s = .next s := by
  have hfalse : skipTaken c s.ac = some false := by
    cases htest : skipTaken c s.ac with
    | none => exact absurd (skipTaken_eq_none_iff.mp htest) hc
    | some b => cases b with
      | false => rfl
      | true => exact absurd htest h
  simp only [exec, execSkipcond, hfalse]

theorem exec_skipcond_invalid {g : BitVec 10} {s : State} :
    exec (.skipcond 3 g) s = raise (.invalidCondition 3) s := by
  simp only [exec, execSkipcond, skipTaken_eq_none_iff.mpr]

/-- Settles O24: the three tests as numbers decide between the two cases of PC. -/
theorem skipcondSkipsByAccumulator : Obligations.SkipcondSkipsByAccumulator := by
  refine ⟨fun c g => ?decodes, fun c g s => ⟨fun hc hstay => ?stays, fun htake hpc => ?skips, fun htake hpc => ?atLast,
    fun hc => ?invalid⟩⟩
  case decodes => exact (decode_append 8#4 (c ++ g)).trans (instrOf_opcodeFor (.skipcond c g))
  case stays => exact exec_skipcond_stay hc (mt skipTaken_eq_true_iff.mp hstay)
  case skips => exact ⟨_, exec_skipcond_skip (skipTaken_eq_true_iff.mpr htake) hpc, addr_toNat_succ hpc, rfl⟩
  case atLast =>
    rw [exec_skipcond_skip_last (skipTaken_eq_true_iff.mpr htake) hpc]
    exact haltsWith_raise _ s
  case invalid =>
    rw [hc, exec_skipcond_invalid]
    exact haltsWith_raise _ s

/-! ## INPUT, OUTPUT, HALT, opcode 15 -/

theorem exec_input_of_queued {g : BitVec 12} {s : State} {v : Word} {rest : List Word} (h : s.inQ = v :: rest) :
    exec (.input g) s = .next { s with ac := v, inQ := rest } := by
  simp only [exec, execInput, h, writeReg_ac]

theorem exec_input_of_empty {g : BitVec 12} {s : State} (h : s.inQ = []) (hpc : s.pc ≠ 0) :
    exec (.input g) s = .next ({ s with pc := s.pc - 1, runState := .paused }.emit .inputRequested) := by
  simp only [exec, execInput, h, writeReg_pc_pred hpc]

theorem exec_input_at_zero {g : BitVec 12} {s : State} (h : s.inQ = []) (hpc : s.pc = 0) :
    exec (.input g) s = raise (.rangeError (.reg .pc)) s := by
  simp only [exec, execInput, h, hpc]
  exact writeReg_of_not_fits (.inl (by decide))

theorem addr_toNat_pred {a : Addr} (h : a ≠ 0) : (a - 1).toNat + 1 = a.toNat := by
  have h0 : a.toNat ≠ 0 := fun e => h (BitVec.eq_of_toNat_eq e)
  have hsub : (a - 1).toNat = a.toNat - 1 := BitVec.toNat_sub_of_le (Nat.one_le_iff_ne_zero.mpr h0)
  omega

/-- Settles O29: the two cases of the queue. -/
theorem inputTakesHeadOrPauses : Obligations.InputTakesHeadOrPauses :=
  ⟨decode_append 5#4, fun _ _ => ⟨fun _ _ => exec_input_of_queued, fun hq hpc =>
    ⟨_, exec_input_of_empty hq hpc, addr_toNat_pred hpc, rfl⟩⟩⟩

theorem exec_output (g : BitVec 12) (s : State) :
    exec (.output g) s = .next ({ s with outLog := s.outLog ++ [s.ac] }.emit (.output s.ac)) := rfl

/-- Settles O30: one append to the log and one to the events. -/
theorem outputAppendsAc : Obligations.OutputAppendsAc := ⟨decode_append 6#4, exec_output⟩

theorem exec_halt (g : BitVec 12) (s : State) :
    exec (.halt g) s = .next ({ s with runState := .halted, haltCause := .haltInstr }.emit .programEnd) := rfl

/-- Settles O31: the outcome is read from the run state and the cause HALT writes. -/
theorem haltEndsRun : Obligations.HaltEndsRun :=
  ⟨decode_append 7#4, fun g s => ⟨_, exec_halt g s, rfl, rfl⟩⟩

theorem exec_illegal (g : BitVec 12) (s : State) : exec (.illegal g) s = raise (.unknownOpcode 15) s := rfl

/-! ## JNS, then JUMPI -/

/-- What `JNS x` answers, either way, has the memory of its write. -/
theorem mem_of_exec_jns {x : Addr} {s t : State} (h : exec (.jns x) s = .next t) : t.mem = jnsMemory x s := by
  by_cases hx : x = 4095
  · subst hx
    rw [exec_jns_last] at h
    cases h
    rfl
  · rw [exec_jns_of_ne_last hx] at h
    cases h
    rfl

/-- Settles O28: the cell holds the return address with zeros before it, which fits PC and is PC again. -/
theorem jumpiReturnsFromJns : Obligations.JumpiReturnsFromJns := by
  intro x s t u hwf hjns hcell
  have hword : Memory.read u.mem x.toNat = s.pc.setWidth 16 := by
    rw [hcell, mem_of_exec_jns hjns, jnsMemory, Memory.read_write_same hwf]
  have hsmall : (Memory.read u.mem x.toNat).toNat ≤ 4095 := by
    have := s.pc.isLt
    rw [hword, BitVec.toNat_setWidth_of_le (by decide)]
    omega
  have hback : (s.pc.setWidth 16).setWidth 12 = s.pc := BitVec.setWidth_setWidth_of_le s.pc (by decide)
  rw [exec_jumpi_of_le hsmall, hword, hback]

end Sys2Proof.Machine
end

section
/-! PROOFS. The execute phase as a whole: the error it takes (`execError`), the state it leaves without one
(`State.executed`), and, said once by inversion, the few ways in which that state differs from the one before (`Effect`).
The frames and, in the next section, the facts about steps are read off these. -/

namespace Sys2Proof.Machine

/-! ## The error and the next state of an execute phase -/

/-- The fatal error of an execute phase, by R111's list from the opcode on. It is `State.stepError` seen after the fetch
(`stepError_of_ne_last`), with the INPUT of log 21, which no step reaches. -/
def execError (i : Instr) (s : State) : Option FatalError :=
  let cell (a : Nat) : Nat := (Memory.read s.mem a).toNat
  match i with
  | .illegal _ => some (.unknownOpcode 15)
  | .jns x => if x = 4095 then some (.rangeError (.reg .pc)) else none
  | .skipcond c _ =>
    if c = 3 then some (.invalidCondition 3)
    else if skipTaken c s.ac = some true ∧ s.pc = 4095 then some (.rangeError (.reg .pc))
    else none
  | .input _ => if s.inQ = [] ∧ s.pc = 0 then some (.rangeError (.reg .pc)) else none
  | .jumpi x => if 4095 < cell x.toNat then some (.rangeError (.reg .pc)) else none
  | .loadi x | .storei x => if 4095 < cell x.toNat then some (.rangeError .addr) else none
  | .addi x =>
    if 4095 < cell x.toNat then some (.rangeError .addr)
    else if maxWord < s.ac.toNat + cell (cell x.toNat) then some .arithmeticOverflow
    else none
  | .add x => if maxWord < s.ac.toNat + cell x.toNat then some .arithmeticOverflow else none
  | .subt x => if s.ac.toNat < cell x.toNat then some .arithmeticUnderflow else none
  | .load _ | .store _ | .output _ | .halt _ | .jump _ | .clear _ => none

/-- The state an execute phase has reached when it raises its error: only JNS has written by then (R110). -/
def State.atError (s : State) (i : Instr) : State :=
  match i with
  | .jns x => { s with mem := jnsMemory x s }
  | _ => s

/-- The state an INPUT leaves, when it takes a value and when it pauses (R104). -/
def State.afterInput (s : State) : State :=
  match s.inQ with
  | v :: rest => { s with ac := v, inQ := rest }
  | [] => { s with pc := s.pc - 1, runState := .paused }.emit .inputRequested

/-- The state an execute phase without an error leaves. -/
def State.executed (s : State) (i : Instr) : State :=
  match i with
  | .jns x => { s with mem := jnsMemory x s, pc := x + 1 }
  | .load x => { s with ac := Memory.read s.mem x.toNat }
  | .store x => { s with mem := Memory.write s.mem x.toNat s.ac }
  | .add x => { s with ac := s.ac + Memory.read s.mem x.toNat }
  | .subt x => { s with ac := s.ac - Memory.read s.mem x.toNat }
  | .input _ => s.afterInput
  | .output _ => { s with outLog := s.outLog ++ [s.ac] }.emit (.output s.ac)
  | .halt _ => { s with runState := .halted, haltCause := .haltInstr }.emit .programEnd
  | .skipcond c _ => { s with pc := if skipTaken c s.ac = some true then s.pc + 1 else s.pc }
  | .jump x => { s with pc := x }
  | .clear _ => { s with ac := 0 }
  | .addi x => { s with ac := s.ac + Memory.read s.mem (indirectAddr s x) }
  | .jumpi x => { s with pc := (Memory.read s.mem x.toNat).setWidth 12 }
  | .loadi x => { s with ac := Memory.read s.mem (indirectAddr s x) }
  | .storei x => { s with mem := Memory.write s.mem (indirectAddr s x) s.ac }
  | .illegal _ => s

theorem afterInput_of_queued {s : State} {v : Word} {rest : List Word} (h : s.inQ = v :: rest) :
    s.afterInput = { s with ac := v, inQ := rest } := by
  simp only [State.afterInput, h]

theorem afterInput_of_empty {s : State} (h : s.inQ = []) :
    s.afterInput = { s with pc := s.pc - 1, runState := .paused }.emit .inputRequested := by
  simp only [State.afterInput, h]

theorem exec_input_of_no_error {g : BitVec 12} {s : State} (h : ¬ (s.inQ = [] ∧ s.pc = 0)) :
    exec (.input g) s = .next s.afterInput := by
  cases hq : s.inQ with
  | nil => rw [exec_input_of_empty hq fun hpc => h ⟨hq, hpc⟩, afterInput_of_empty hq]
  | cons v rest => rw [exec_input_of_queued hq, afterInput_of_queued hq]

theorem exec_skipcond_of_no_error {c : BitVec 2} {g : BitVec 10} {s : State} (hc : c ≠ 3)
    (h : ¬ (skipTaken c s.ac = some true ∧ s.pc = 4095)) :
    exec (.skipcond c g) s = .next (s.executed (.skipcond c g)) := by
  by_cases htake : skipTaken c s.ac = some true
  · rw [exec_skipcond_skip htake fun hpc => h ⟨htake, hpc⟩, State.executed, if_pos htake]
  · rw [exec_skipcond_stay hc htake, State.executed, if_neg htake]

/-- Every execute phase either takes its error, keeping what it has written, or leaves its next state. -/
theorem exec_eq_raise_or_next (i : Instr) (s : State) :
    (∃ e, execError i s = some e ∧ exec i s = raise e (s.atError i)) ∨
    (execError i s = none ∧ exec i s = .next (s.executed i)) := by
  cases i with
  | load x => exact .inr ⟨rfl, exec_load x s⟩
  | store x => exact .inr ⟨rfl, exec_store x s⟩
  | output g => exact .inr ⟨rfl, exec_output g s⟩
  | halt g => exact .inr ⟨rfl, exec_halt g s⟩
  | jump x => exact .inr ⟨rfl, exec_jump x s⟩
  | clear g => exact .inr ⟨rfl, exec_clear g s⟩
  | illegal g => exact .inl ⟨_, rfl, exec_illegal g s⟩
  | jns x =>
    by_cases hx : x = 4095
    · subst hx
      exact .inl ⟨_, rfl, exec_jns_last s⟩
    · exact .inr ⟨if_neg hx, exec_jns_of_ne_last hx⟩
  | add x =>
    by_cases hsum : maxWord < s.ac.toNat + (Memory.read s.mem x.toNat).toNat
    · exact .inl ⟨_, if_pos hsum, exec_add_of_overflow hsum⟩
    · exact .inr ⟨if_neg hsum, exec_add_of_fits (Nat.not_lt.mp hsum)⟩
  | subt x =>
    by_cases hdiff : s.ac.toNat < (Memory.read s.mem x.toNat).toNat
    · exact .inl ⟨_, if_pos hdiff, exec_subt_of_underflow hdiff⟩
    · exact .inr ⟨if_neg hdiff, exec_subt_of_fits (Nat.not_lt.mp hdiff)⟩
  | input g =>
    by_cases hzero : s.inQ = [] ∧ s.pc = 0
    · exact .inl ⟨_, if_pos hzero, exec_input_at_zero hzero.1 hzero.2⟩
    · exact .inr ⟨if_neg hzero, exec_input_of_no_error hzero⟩
  | skipcond c g =>
    by_cases hc : c = 3
    · subst hc
      exact .inl ⟨_, rfl, exec_skipcond_invalid⟩
    · by_cases hlast : skipTaken c s.ac = some true ∧ s.pc = 4095
      · exact .inl ⟨_, (if_neg hc).trans (if_pos hlast), exec_skipcond_skip_last hlast.1 hlast.2⟩
      · exact .inr ⟨(if_neg hc).trans (if_neg hlast), exec_skipcond_of_no_error hc hlast⟩
  | jumpi x =>
    by_cases hp : 4095 < indirectAddr s x
    · exact .inl ⟨_, if_pos hp, exec_jumpi_of_gt hp⟩
    · exact .inr ⟨if_neg hp, exec_jumpi_of_le (Nat.not_lt.mp hp)⟩
  | loadi x =>
    by_cases hp : 4095 < indirectAddr s x
    · exact .inl ⟨_, if_pos hp, exec_loadi_of_large_pointer hp⟩
    · exact .inr ⟨if_neg hp, exec_loadi_of_pointer (Nat.not_lt.mp hp)⟩
  | storei x =>
    by_cases hp : 4095 < indirectAddr s x
    · exact .inl ⟨_, if_pos hp, exec_storei_of_large_pointer hp⟩
    · exact .inr ⟨if_neg hp, exec_storei_of_pointer (Nat.not_lt.mp hp)⟩
  | addi x =>
    by_cases hp : 4095 < indirectAddr s x
    · exact .inl ⟨_, if_pos hp, exec_addi_of_large_pointer hp⟩
    · by_cases hsum : maxWord < s.ac.toNat + (Memory.read s.mem (indirectAddr s x)).toNat
      · exact .inl ⟨_, (if_neg hp).trans (if_pos hsum), exec_addi_of_overflow (Nat.not_lt.mp hp) hsum⟩
      · exact .inr ⟨(if_neg hp).trans (if_neg hsum), exec_addi_of_fits (Nat.not_lt.mp hp) (Nat.not_lt.mp hsum)⟩

/-- Settles O35: both cases of `exec_eq_raise_or_next` are next states. -/
theorem everyInstructionAnswersNextState : Obligations.EveryInstructionAnswersNextState := by
  intro i s
  rcases exec_eq_raise_or_next i s with ⟨e, -, h⟩ | ⟨-, h⟩
  · exact ⟨_, h⟩
  · exact ⟨_, h⟩

theorem exec_of_error {i : Instr} {s : State} {e : FatalError} (he : execError i s = some e) :
    exec i s = raise e (s.atError i) := by
  rcases exec_eq_raise_or_next i s with ⟨e', he', h⟩ | ⟨hnone, -⟩
  · rwa [Option.some.inj (he.symm.trans he')]
  · exact absurd (he.symm.trans hnone) (Option.some_ne_none e)

theorem exec_of_no_error {i : Instr} {s : State} (hnone : execError i s = none) :
    exec i s = .next (s.executed i) := by
  rcases exec_eq_raise_or_next i s with ⟨e, he, -⟩ | ⟨-, h⟩
  · exact absurd (he.symm.trans hnone) (Option.some_ne_none e)
  · exact h

/-! ## The effects an instruction can have -/

/-- The instructions by what they write (sections 1 of spec/10_state.md and spec/20_memory.md). -/
inductive Kind where
  | accumulator
  | store
  | transfer
  | input
  | output
  | halt
  | illegal
  deriving DecidableEq

/-- The kind of an instruction, by its row of the opcode table. -/
def kindOf : Instr → Kind
  | .load _ | .add _ | .subt _ | .clear _ | .addi _ | .loadi _ => .accumulator
  | .jns _ | .store _ | .storei _ => .store
  | .skipcond _ _ | .jump _ | .jumpi _ => .transfer
  | .input _ => .input
  | .output _ => .output
  | .halt _ => .halt
  | .illegal _ => .illegal

/-- What the state `t` an instruction leaves without an error can be, from `s`. -/
inductive Effect (i : Instr) (s : State) : State → Prop where
  | setsAc (v : Word) (hk : kindOf i = .accumulator) : Effect i s { s with ac := v }
  | stores (a : Nat) (v : Word) (pc : Addr) (hk : kindOf i = .store) (hpc : i.mnemonic ≠ "JNS" → pc = s.pc)
      (hstore : storeAddr i s = some a) (ha : a < memSize) :
      Effect i s { s with mem := Memory.write s.mem a v, pc := pc }
  | transfers (pc : Addr) (hk : kindOf i = .transfer) : Effect i s { s with pc := pc }
  | takes (v : Word) (rest : List Word) (hk : kindOf i = .input) (hq : s.inQ = v :: rest) :
      Effect i s { s with ac := v, inQ := rest }
  | pauses (hk : kindOf i = .input) (hq : s.inQ = []) :
      Effect i s ({ s with pc := s.pc - 1, runState := .paused }.emit .inputRequested)
  | outputs (hk : kindOf i = .output) :
      Effect i s ({ s with outLog := s.outLog ++ [s.ac] }.emit (.output s.ac))
  | halts (hk : kindOf i = .halt) :
      Effect i s ({ s with runState := .halted, haltCause := .haltInstr }.emit .programEnd)

theorem effect_afterInput (g : BitVec 12) (s : State) : Effect (.input g) s s.afterInput := by
  cases hq : s.inQ with
  | nil => exact afterInput_of_empty hq ▸ .pauses rfl hq
  | cons v rest => exact afterInput_of_queued hq ▸ .takes v rest rfl hq

theorem storei_pointer_lt {x : Addr} {s : State} (h : execError (.storei x) s = none) : indirectAddr s x < memSize := by
  by_contra hp
  exact absurd ((if_pos (Nat.not_lt.mp hp)).symm.trans h) (Option.some_ne_none _)

theorem executed_effect {i : Instr} {s : State} (h : execError i s = none) : Effect i s (s.executed i) := by
  cases i with
  | load | add | subt | clear | addi | loadi => exact .setsAc _ rfl
  | skipcond | jump | jumpi => exact .transfers _ rfl
  | jns x => exact .stores _ _ _ rfl (absurd rfl) rfl x.isLt
  | store x => exact .stores _ _ _ rfl (fun _ => rfl) rfl x.isLt
  | storei x => exact .stores _ _ _ rfl (fun _ => rfl) rfl (storei_pointer_lt h)
  | input g => exact effect_afterInput g s
  | output => exact .outputs rfl
  | halt => exact .halts rfl
  | illegal => exact absurd h (Option.some_ne_none _)

/-- If an execute phase answers a next state, it is that of its error or one of the effects. -/
theorem exec_next {i : Instr} {s t : State} (h : exec i s = .next t) :
    (∃ e, execError i s = some e ∧ t = (s.atError i).raised e) ∨ (execError i s = none ∧ Effect i s t) := by
  rcases exec_eq_raise_or_next i s with ⟨e, he, hexec⟩ | ⟨hnone, hexec⟩
  · rw [hexec] at h
    cases h
    exact .inl ⟨e, he, rfl⟩
  · rw [hexec] at h
    cases h
    exact .inr ⟨hnone, executed_effect hnone⟩

/-! ## What the error state keeps -/

/-- The error state differs in memory only. -/
theorem atError_eq (i : Instr) (s : State) : s.atError i = { s with mem := (s.atError i).mem } := by
  cases i
  all_goals rfl

@[simp] theorem atError_ac (i : Instr) (s : State) : (s.atError i).ac = s.ac := by rw [atError_eq]

@[simp] theorem atError_ir (i : Instr) (s : State) : (s.atError i).ir = s.ir := by rw [atError_eq]

@[simp] theorem atError_mbr (i : Instr) (s : State) : (s.atError i).mbr = s.mbr := by rw [atError_eq]

@[simp] theorem atError_mar (i : Instr) (s : State) : (s.atError i).mar = s.mar := by rw [atError_eq]

@[simp] theorem atError_pc (i : Instr) (s : State) : (s.atError i).pc = s.pc := by rw [atError_eq]

@[simp] theorem atError_inQ (i : Instr) (s : State) : (s.atError i).inQ = s.inQ := by rw [atError_eq]

@[simp] theorem atError_outLog (i : Instr) (s : State) : (s.atError i).outLog = s.outLog := by rw [atError_eq]

@[simp] theorem atError_events (i : Instr) (s : State) : (s.atError i).events = s.events := by rw [atError_eq]

theorem controlRaised_atError (i : Instr) (s : State) (e : FatalError) : ControlRaised s ((s.atError i).raised e) :=
  ⟨e, rfl, rfl, rfl, by simp⟩

/-- A cell that the instruction does not store to is unchanged where its error is raised. -/
theorem read_atError_of_not_stored {i : Instr} {s : State} {a : Nat} (h : storeAddr i s ≠ some a) :
    Memory.read (s.atError i).mem a = Memory.read s.mem a := by
  cases i with
  | jns x => exact read_jnsMemory_other fun ha => h (congrArg some ha.symm)
  | _ => rfl

theorem wf_atError {i : Instr} {s : State} (h : Memory.wf s.mem = true) : Memory.wf (s.atError i).mem = true := by
  cases i with
  | jns x => exact Memory.wf_write x.isLt h
  | _ => exact h

/-! ## What every execute phase keeps -/

theorem Effect.transients {i : Instr} {s t : State} (h : Effect i s t) : t.ir = s.ir ∧ t.mbr = s.mbr ∧ t.mar = s.mar := by
  cases h
  all_goals exact ⟨rfl, rfl, rfl⟩

theorem Effect.err {i : Instr} {s t : State} (h : Effect i s t) : t.err = s.err := by
  cases h
  all_goals rfl

/-- A cell that the instruction does not store to is unchanged. -/
theorem Effect.read_of_not_stored {i : Instr} {s t : State} {a : Nat} (h : Effect i s t) (ha : storeAddr i s ≠ some a) :
    Memory.read t.mem a = Memory.read s.mem a := by
  cases h with
  | stores b v pc _ _ hstore _ => exact Memory.read_write_other fun hab => ha (hab ▸ hstore)
  | _ => rfl

theorem Effect.wf {i : Instr} {s t : State} (h : Effect i s t) (hwf : Memory.wf s.mem = true) :
    Memory.wf t.mem = true := by
  cases h with
  | stores a v pc _ _ _ ha => exact Memory.wf_write ha hwf
  | _ => exact hwf

/-- No instruction writes MAR, MBR or IR. -/
theorem exec_transients {i : Instr} {s t : State} (h : exec i s = .next t) :
    t.ir = s.ir ∧ t.mbr = s.mbr ∧ t.mar = s.mar := by
  rcases exec_next h with ⟨e, -, rfl⟩ | ⟨-, heff⟩
  · simp
  · exact heff.transients

theorem exec_read_of_not_stored {i : Instr} {s t : State} {a : Nat} (h : exec i s = .next t)
    (ha : storeAddr i s ≠ some a) : Memory.read t.mem a = Memory.read s.mem a := by
  rcases exec_next h with ⟨e, -, rfl⟩ | ⟨-, heff⟩
  · exact read_atError_of_not_stored ha
  · exact heff.read_of_not_stored ha

/-! ## The frames, by kind -/

theorem kindOf_of_accumulator_mnemonic {i : Instr}
    (h : i.mnemonic ∈ ["LOAD", "ADD", "SUBT", "CLEAR", "ADDI", "LOADI"]) : kindOf i = .accumulator := by
  cases i
  case load | add | subt | clear | addi | loadi => rfl
  all_goals simp [Instr.mnemonic] at h

theorem kindOf_of_store_mnemonic {i : Instr} (h : i.mnemonic ∈ ["JNS", "STORE", "STOREI"]) : kindOf i = .store := by
  cases i
  case jns | store | storei => rfl
  all_goals simp [Instr.mnemonic] at h

theorem kindOf_of_transfer_mnemonic {i : Instr} (h : i.mnemonic ∈ ["SKIPCOND", "JUMP", "JUMPI"]) :
    kindOf i = .transfer := by
  cases i
  case skipcond | jump | jumpi => rfl
  all_goals simp [Instr.mnemonic] at h

theorem storeAddr_of_kind_ne {i : Instr} (s : State) (h : kindOf i ≠ .store) : storeAddr i s = none := by
  cases i
  case jns | store | storei => exact absurd rfl h
  all_goals rfl

theorem storeAddr_of_kind {i : Instr} (s : State) (h : kindOf i = .store) : ∃ a, storeAddr i s = some a := by
  cases i
  case jns | store | storei => exact ⟨_, rfl⟩
  all_goals cases h

theorem sameMemory_of_kind_ne {i : Instr} {s t : State} (hk : kindOf i ≠ .store) (h : exec i s = .next t) :
    SameMemory s t := fun a =>
  exec_read_of_not_stored h (by simp [storeAddr_of_kind_ne s hk])

/-- Settles O45: an accumulator instruction raises, or writes AC alone. -/
theorem accumulatorInstructionsFrame : Obligations.AccumulatorInstructionsFrame := by
  intro i s t hm h
  have hk := kindOf_of_accumulator_mnemonic hm
  obtain ⟨hir, hmbr, hmar⟩ := exec_transients h
  have hmem : SameMemory s t := sameMemory_of_kind_ne (by simp [hk]) h
  rcases exec_next h with ⟨e, -, rfl⟩ | ⟨-, heff⟩
  · exact ⟨atError_pc i s, hir, hmbr, hmar, hmem, atError_inQ i s, atError_outLog i s,
      .inr ⟨controlRaised_atError i s e, atError_ac i s⟩⟩
  · cases heff with
    | setsAc v => exact ⟨rfl, hir, hmbr, hmar, hmem, rfl, rfl, .inl ⟨rfl, rfl, rfl, rfl⟩⟩
    | stores _ _ _ hk' | transfers _ hk' | takes _ _ hk' | pauses hk' | outputs hk' | halts hk' =>
      cases hk.symm.trans hk'

/-- Settles O46: a storing instruction raises, or writes its cell and, as JNS, PC. -/
theorem storingInstructionsFrame : Obligations.StoringInstructionsFrame := by
  intro i s t hm h
  have hk := kindOf_of_store_mnemonic hm
  obtain ⟨hir, hmbr, hmar⟩ := exec_transients h
  have hcells : ∃ a, storeAddr i s = some a ∧ ∀ c, c ≠ a → Memory.read t.mem c = Memory.read s.mem c := by
    obtain ⟨a, ha⟩ := storeAddr_of_kind s hk
    exact ⟨a, ha, fun c hc => exec_read_of_not_stored h (by simp [ha, Ne.symm hc])⟩
  rcases exec_next h with ⟨e, -, rfl⟩ | ⟨-, heff⟩
  · exact ⟨hcells, atError_ac i s, hir, hmbr, hmar, fun _ => atError_pc i s, atError_inQ i s, atError_outLog i s,
      .inr (controlRaised_atError i s e)⟩
  · cases heff with
    | stores _ _ _ _ hpc => exact ⟨hcells, rfl, hir, hmbr, hmar, hpc, rfl, rfl, .inl ⟨rfl, rfl, rfl, rfl⟩⟩
    | setsAc _ hk' | transfers _ hk' | takes _ _ hk' | pauses hk' | outputs hk' | halts hk' =>
      cases hk.symm.trans hk'

/-- Settles O47: a control transfer raises, or writes PC alone. -/
theorem controlTransferFrame : Obligations.ControlTransferFrame := by
  intro i s t hm h
  have hk := kindOf_of_transfer_mnemonic hm
  obtain ⟨hir, hmbr, hmar⟩ := exec_transients h
  have hmem : SameMemory s t := sameMemory_of_kind_ne (by simp [hk]) h
  rcases exec_next h with ⟨e, -, rfl⟩ | ⟨-, heff⟩
  · exact ⟨atError_ac i s, hir, hmbr, hmar, hmem, atError_inQ i s, atError_outLog i s,
      .inr ⟨controlRaised_atError i s e, atError_pc i s⟩⟩
  · cases heff with
    | transfers pc => exact ⟨rfl, hir, hmbr, hmar, hmem, rfl, rfl, .inl ⟨rfl, rfl, rfl, rfl⟩⟩
    | setsAc _ hk' | stores _ _ _ hk' | takes _ _ hk' | pauses hk' | outputs hk' | halts hk' =>
      cases hk.symm.trans hk'

/-! ## INPUT, OUTPUT, HALT, opcode 15 -/

/-- Settles O48: each of the four has one effect, or two by the queue; INPUT at PC = 0 (log 21) raises, and then keeps
everything the frame names. -/
theorem inputOutputHaltFrame : Obligations.InputOutputHaltFrame := by
  intro i s t hm h
  cases i with
  | output g =>
    cases h
    simp [Instr.mnemonic, SameMemory]
  | halt g =>
    cases h
    simp [Instr.mnemonic, SameMemory]
  | illegal g =>
    cases h
    simp [Instr.mnemonic, SameMemory, ControlRaised]
  | input g =>
    cases hq : s.inQ with
    | cons v rest =>
      rw [exec_input_of_queued hq] at h
      cases h
      simp [Instr.mnemonic, SameMemory, SameControl]
    | nil =>
      by_cases hpc : s.pc = 0
      · rw [exec_input_at_zero hq hpc] at h
        cases h
        simp [Instr.mnemonic, SameMemory, hpc]
      · rw [exec_input_of_empty hq hpc] at h
        cases h
        simp [Instr.mnemonic, SameMemory, hq]
  | jns | load | store | add | subt | skipcond | jump | clear | addi | jumpi | loadi | storei =>
    simp [Instr.mnemonic] at hm

/-! ## AC -/

theorem kindOf_ne_accumulator {i : Instr} (h : i.mnemonic ∉ ["LOAD", "ADD", "SUBT", "CLEAR", "ADDI", "LOADI"]) :
    kindOf i ≠ .accumulator := by
  cases i
  case load | add | subt | clear | addi | loadi => simp [Instr.mnemonic] at h
  all_goals exact fun hk => Kind.noConfusion hk

theorem mnemonic_of_input {i : Instr} (h : kindOf i = .input) : i.mnemonic = "INPUT" := by
  cases i
  case input => rfl
  all_goals cases h

theorem exec_jumpi_with_ac {x : Addr} {s t : State} (v : Word) (h : exec (.jumpi x) s = .next t) :
    exec (.jumpi x) { s with ac := v } = .next { t with ac := v } := by
  by_cases hp : (Memory.read s.mem x.toNat).toNat ≤ 4095
  · rw [exec_jumpi_of_le hp] at h
    cases h
    exact exec_jumpi_of_le hp
  · rw [exec_jumpi_of_gt (Nat.not_le.mp hp)] at h
    cases h
    exact exec_jumpi_of_gt (Nat.not_le.mp hp)

/-- Settles O39: only two of the effects write AC, and the four non-readers answer the same for any AC. -/
theorem accumulatorWritersAndNonReaders : Obligations.AccumulatorWritersAndNonReaders := by
  refine ⟨fun i s t h hm hinput => ?keeps, fun i s t v hm h => ?ignores⟩
  case keeps =>
    rcases exec_next h with ⟨e, -, rfl⟩ | ⟨-, heff⟩
    · exact atError_ac i s
    · cases heff with
      | setsAc v hk => exact absurd hk (kindOf_ne_accumulator hm)
      | takes v rest hk hq => exact absurd (hq.symm.trans (hinput (mnemonic_of_input hk))) (List.cons_ne_nil v rest)
      | stores | transfers | pauses | outputs | halts => rfl
  case ignores =>
    cases i with
    | jns x => exact exec_jns_with_ac v h
    | jumpi x => exact exec_jumpi_with_ac v h
    | jump x =>
      rw [exec_jump] at h ⊢
      cases h
      rfl
    | halt g =>
      cases h
      rfl
    | load | store | add | subt | input | output | skipcond | clear | addi | loadi | storei | illegal =>
      simp [Instr.mnemonic] at hm

end Sys2Proof.Machine
end

section
/-! PROOFS. The step (spec/40_engine.md R73 to R79, R86; spec/60_exceptions.md R110, R111): what it answers, said once as an
equation per case and once by inversion (`StepAnswer`), and the obligations about every step from these. -/

namespace Sys2Proof.Machine

/-! ## A step, case by case -/

theorem step_of_not_running {s : State} (h : s.runState ≠ .running) : step s = .refused .stepNotRunning := if_neg h

theorem step_of_ne_last {s : State} (hrun : s.runState = .running) (hpc : s.pc ≠ 4095) :
    step s = exec (decode s.fetchWord) s.fetched :=
  (if_pos hrun).trans (fetch_of_ne_last hpc)

theorem step_of_last {s : State} (hrun : s.runState = .running) (hpc : s.pc = 4095) :
    step s = raise (.rangeError (.reg .pc)) s.fetchFailed :=
  (if_pos hrun).trans (fetch_of_last hpc)

theorem step_of_running {s : State} (hrun : s.runState = .running) : ∃ t, step s = .next t := by
  by_cases hpc : s.pc = 4095
  · exact ⟨_, step_of_last hrun hpc⟩
  · rw [step_of_ne_last hrun hpc]
    exact everyInstructionAnswersNextState _ _

theorem decode_of_opcodeOf {w : Word} {op : BitVec 4} (h : opcodeOf w = op) : decode w = instrOf op.toNat (operandOf w) := by
  rw [decode, h]

/-- Settles O27: after the fetch, the whole effect of opcode 15 is the raise. -/
theorem unknownOpcodeHalts : Obligations.UnknownOpcodeHalts := by
  refine ⟨decode_append 15#4, exec_illegal, fun s hrun hpc hop => ?_⟩
  have hword : decode s.fetchWord = .illegal (operandOf s.fetchWord) := decode_of_opcodeOf hop
  rw [step_of_ne_last hrun hpc, hword, exec_illegal]
  exact haltsWith_raise _ _

/-- Settles O32: the state the execute phase starts from is `State.fetched`. -/
theorem stepRunsDecodedInstruction : Obligations.StepRunsDecodedInstruction := by
  rintro s w i hrun hpc rfl rfl
  exact step_of_ne_last hrun hpc

/-- Settles O33: the state the failing fetch raises from is `State.fetchFailed`. -/
theorem fetchAtLastAddressFails : Obligations.FetchAtLastAddressFails := by
  rintro s w hrun hpc rfl
  have hstate : s.fetchFailed =
      { s with mar := 4095, mbr := Memory.read s.mem 4095, ir := Memory.read s.mem 4095 } := by
    rw [State.fetchFailed, State.fetchWord, hpc]
    rfl
  rw [step_of_last hrun hpc, ← hstate]
  exact haltsWith_raise _ _

/-- Settles O34: in Running a step answers a next state, so that only the test of the run state refuses. -/
theorem stepRefusedExactlyOutsideRunning : Obligations.StepRefusedExactlyOutsideRunning := by
  refine fun s => ⟨⟨step_of_not_running, fun hrefused hrun => ?_⟩, fun hstopped cfg => ?_, step_of_running⟩
  · obtain ⟨t, ht⟩ := step_of_running hrun
    cases ht.symm.trans hrefused
  · rw [perform, step_of_not_running hstopped, settle]

/-! ## IR, MAR, MBR -/

/-- Settles O36: the fetch writes IR with the word it reads, and no instruction writes it after that. -/
theorem irHoldsExecutedWord : Obligations.IrHoldsExecutedWord := by
  refine ⟨fun i s t h => (exec_transients h).1, fun s t h => ?_⟩
  obtain ⟨-, ⟨hpc, rfl⟩ | ⟨hpc, hexec⟩⟩ := step_next h
  · exact ⟨rfl, fun hne => absurd hpc hne⟩
  · have hir : t.ir = s.fetchWord := (exec_transients hexec).1
    exact ⟨hir, fun _ => hir ▸ hexec⟩

/-- Settles O37: the fetch overwrites all three registers, whether it fails or not. -/
theorem stepIgnoresTransientRegisters : Obligations.StepIgnoresTransientRegisters := by
  intro s a b c
  by_cases hrun : s.runState = .running
  · by_cases hpc : s.pc = 4095
    · exact (step_of_last (s := { s with mar := a, mbr := b, ir := c }) hrun hpc).trans (step_of_last hrun hpc).symm
    · exact (step_of_ne_last (s := { s with mar := a, mbr := b, ir := c }) hrun hpc).trans
        (step_of_ne_last hrun hpc).symm
  · exact (step_of_not_running (s := { s with mar := a, mbr := b, ir := c }) hrun).trans (step_of_not_running hrun).symm

/-! ## What a step can answer -/

theorem addr_succ_eq_last_iff {a : Addr} : a + 1 = 4095 ↔ a = 4094 := by
  bv_omega

theorem addr_succ_ne_zero {a : Addr} (h : a ≠ 4095) : a + 1 ≠ 0 := by
  bv_omega

/-- R111's list from the state before the step is the fetch, then the error of the execute phase from the fetched state. -/
theorem stepError_of_ne_last {s : State} (hpc : s.pc ≠ 4095) :
    s.stepError = execError (decode s.fetchWord) s.fetched := by
  rw [State.stepError, if_neg hpc]
  generalize decode s.fetchWord = i
  cases i with
  | skipcond c g => simp only [execError, State.fetched_ac, State.fetched_pc, addr_succ_eq_last_iff]
  | input g => exact (if_neg fun hzero => addr_succ_ne_zero hpc hzero.2).symm
  | _ => rfl

theorem stepError_of_last {s : State} (hpc : s.pc = 4095) : s.stepError = some (.rangeError (.reg .pc)) := if_pos hpc

/-- The three ways a step from `s` ends: the fetch fails, the execute phase of the fetched word `i` raises, or it has its
effect. -/
inductive StepAnswer (s : State) : State → Prop where
  | fetchFails (hpc : s.pc = 4095) : StepAnswer s (s.fetchFailed.raised (.rangeError (.reg .pc)))
  | raises (i : Instr) (e : FatalError) (hpc : s.pc ≠ 4095) (hi : decode s.fetchWord = i)
      (he : s.stepError = some e) : StepAnswer s ((s.fetched.atError i).raised e)
  | executes (i : Instr) (t : State) (hpc : s.pc ≠ 4095) (hi : decode s.fetchWord = i) (he : s.stepError = none)
      (heff : Effect i s.fetched t) : StepAnswer s t

theorem step_answer {s t : State} (h : step s = .next t) : s.runState = .running ∧ StepAnswer s t := by
  obtain ⟨hrun, ⟨hpc, rfl⟩ | ⟨hpc, hexec⟩⟩ := step_next h
  · exact ⟨hrun, .fetchFails hpc⟩
  · refine ⟨hrun, ?_⟩
    rcases exec_next hexec with ⟨e, he, rfl⟩ | ⟨he, heff⟩
    · exact .raises _ e hpc rfl ((stepError_of_ne_last hpc).trans he)
    · exact .executes _ t hpc rfl ((stepError_of_ne_last hpc).trans he) heff

/-! ## Errors, run state, events -/

/-- Settles O40: a raise records its error, and no effect writes the record or, but for HALT, the cause. -/
theorem stepRaisesExactlyListedErrors : Obligations.StepRaisesExactlyListedErrors := by
  intro s t h
  cases (step_answer h).2 with
  | fetchFails hpc => simp [stepError_of_last hpc]
  | raises i e _ _ he => simp [he]
  | executes i t _ _ he heff =>
    have herr : t.err = s.err := heff.err
    have hcause : t.haltCause = s.haltCause ∨ t.haltCause = .haltInstr := by
      cases heff with
      | halts => exact .inr rfl
      | setsAc | stores | transfers | takes | pauses | outputs => exact .inl rfl
    simp [he, herr, hcause]

/-- The run state a kind of instruction leaves when it takes no error, `q` being the queue before it (R86). -/
def Kind.runStateAfter (q : List Word) : Kind → RunState
  | .halt => .halted
  | .input => if q = [] then .paused else .running
  | .accumulator | .store | .transfer | .output | .illegal => .running

/-- The events a kind of instruction emits when it takes no error (R79). -/
def Kind.eventsFrom (s : State) : Kind → List Event
  | .halt => [.programEnd]
  | .input => if s.inQ = [] then [.inputRequested] else []
  | .output => [.output s.ac]
  | .accumulator | .store | .transfer | .illegal => []

theorem stepRunState_of_error {s : State} {e : FatalError} (he : s.stepError = some e) : s.stepRunState = .halted := by
  simp only [State.stepRunState, he]

theorem stepRunState_of_no_error {s : State} {i : Instr} (he : s.stepError = none) (hi : decode s.fetchWord = i) :
    s.stepRunState = (kindOf i).runStateAfter s.inQ := by
  simp only [State.stepRunState, he, hi]
  cases i
  all_goals rfl

theorem stepEvents_of_error {s : State} {e : FatalError} (he : s.stepError = some e) : s.stepEvents = [.error e] := by
  simp only [State.stepEvents, he]

theorem stepEvents_of_no_error {s : State} {i : Instr} (he : s.stepError = none) (hi : decode s.fetchWord = i) :
    s.stepEvents = (kindOf i).eventsFrom s := by
  simp only [State.stepEvents, he, hi]
  cases i
  all_goals rfl

theorem length_eventsFrom_le_one (k : Kind) (s : State) : (k.eventsFrom s).length ≤ 1 := by
  cases k with
  | input =>
    rw [Kind.eventsFrom]
    split
    all_goals decide
  | accumulator | store | transfer | illegal => exact Nat.zero_le 1
  | output | halt => exact le_rfl

/-- Settles O41: a raise halts, and each effect leaves the run state of its kind. -/
theorem stepFollowsTransitionTable : Obligations.StepFollowsTransitionTable := by
  intro s t h
  obtain ⟨hrun, hanswer⟩ := step_answer h
  cases hanswer with
  | fetchFails hpc => exact (stepRunState_of_error (stepError_of_last hpc)).symm
  | raises i e _ _ he => exact (stepRunState_of_error he).symm
  | executes i t _ hi he heff =>
    rw [stepRunState_of_no_error he hi]
    cases heff with
    | setsAc _ hk | stores _ _ _ hk | transfers _ hk | outputs hk => simp [hk, Kind.runStateAfter, hrun]
    | takes v rest hk hq => simp [hk, Kind.runStateAfter, hrun, show s.inQ = v :: rest from hq]
    | pauses hk hq => simp [hk, Kind.runStateAfter, show s.inQ = [] from hq]
    | halts hk => simp [hk, Kind.runStateAfter]

/-- Settles O42: a raise emits its error, and each effect the events of its kind. -/
theorem stepEmitsAtMostOneEvent : Obligations.StepEmitsAtMostOneEvent := by
  intro s t h
  cases (step_answer h).2 with
  | fetchFails hpc => simp [stepEvents_of_error (stepError_of_last hpc)]
  | raises i e _ _ he => simp [stepEvents_of_error he]
  | executes i t _ hi he heff =>
    rw [stepEvents_of_no_error he hi]
    refine ⟨?_, length_eventsFrom_le_one _ s⟩
    cases heff with
    | setsAc _ hk | stores _ _ _ hk | transfers _ hk | outputs hk | halts hk => simp [hk, Kind.eventsFrom]
    | takes v rest hk hq => simp [hk, Kind.eventsFrom, show s.inQ = v :: rest from hq]
    | pauses hk hq => simp [hk, Kind.eventsFrom, show s.inQ = [] from hq]

/-! ## The event stream and the log are never read -/

theorem execError_with_streams (i : Instr) (s : State) (es : List Event) (log : List Word) :
    execError i { s with events := es, outLog := log } = execError i s := by
  cases i
  all_goals rfl

theorem atError_with_streams (i : Instr) (s : State) (es : List Event) (log : List Word) :
    State.atError { s with events := es, outLog := log } i = { s.atError i with events := es, outLog := log } := by
  cases i
  all_goals rfl

/-- An execute phase extends both streams by what does not depend on them. -/
theorem executed_with_streams (i : Instr) (s : State) (es : List Event) (log : List Word) :
    ∃ newEvents newOutput, (s.executed i).events = s.events ++ newEvents ∧
      (s.executed i).outLog = s.outLog ++ newOutput ∧
      State.executed { s with events := es, outLog := log } i =
        { s.executed i with events := es ++ newEvents, outLog := log ++ newOutput } := by
  cases i with
  | output g => exact ⟨[.output s.ac], [s.ac], rfl, rfl, rfl⟩
  | halt g => exact ⟨[.programEnd], [], rfl, by simp [State.executed], by simp [State.executed, State.emit]⟩
  | input g =>
    cases hq : s.inQ with
    | nil =>
      exact ⟨[.inputRequested], [], by simp [State.executed, State.afterInput, hq],
        by simp [State.executed, State.afterInput, hq], by simp [State.executed, State.afterInput, hq, State.emit]⟩
    | cons v rest => exact ⟨[], [], by simp [State.executed, State.afterInput, hq]⟩
  | jns | load | store | add | subt | skipcond | jump | clear | addi | jumpi | loadi | storei | illegal =>
    exact ⟨[], [], by simp [State.executed, indirectAddr, jnsMemory]⟩

/-- Settles O38: the fetch, the error and the effect are the same for any streams, which they only extend. -/
theorem eventStreamAndLogAreNeverRead : Obligations.EventStreamAndLogAreNeverRead := by
  intro s t es log h
  obtain ⟨hrun, ⟨hpc, rfl⟩ | ⟨hpc, hexec⟩⟩ := step_next h
  · refine ⟨[.error (.rangeError (.reg .pc))], [], rfl, (List.append_nil _).symm, ?_⟩
    rw [step_of_last (s := { s with events := es, outLog := log }) hrun hpc, List.append_nil]
    rfl
  · rw [step_of_ne_last (s := { s with events := es, outLog := log }) hrun hpc]
    change ∃ newEvents newOutput, _ ∧ _ ∧
      exec (decode s.fetchWord) { s.fetched with events := es, outLog := log } = _
    generalize decode s.fetchWord = i at hexec ⊢
    cases he : execError i s.fetched with
    | some e =>
      rw [exec_of_error he] at hexec
      cases hexec
      refine ⟨[.error e], [], by simp, by simp, ?_⟩
      rw [exec_of_error ((execError_with_streams ..).trans he), atError_with_streams, List.append_nil]
      rfl
    | none =>
      rw [exec_of_no_error he] at hexec
      cases hexec
      rw [exec_of_no_error ((execError_with_streams ..).trans he)]
      obtain ⟨newEvents, newOutput, hevents, hlog, hstate⟩ := executed_with_streams i s.fetched es log
      exact ⟨newEvents, newOutput, hevents, hlog, by rw [hstate]⟩

/-! ## Memory -/

/-- Settles O49: the fetch stores nothing and leaves the address the execute phase stores to. -/
theorem stepWritesOnlyStoreAddress : Obligations.StepWritesOnlyStoreAddress := by
  intro s t h a ha
  obtain ⟨-, ⟨-, rfl⟩ | ⟨hpc, hexec⟩⟩ := step_next h
  · rfl
  · refine exec_read_of_not_stored (s := s.fetched) hexec ?_
    rw [storeAddr_fetched]
    exact ha.resolve_left hpc

/-- Only JNS 4095 has written when it raises. -/
theorem atError_of_ne_jns_last {i : Instr} {s : State} {e : FatalError} (he : execError i s = some e)
    (hi : i ≠ .jns 4095) : s.atError i = s := by
  cases i with
  | jns x =>
    have hx : x ≠ 4095 := fun hx => hi (congrArg Instr.jns hx)
    exact absurd ((if_neg hx).symm.trans he) (Option.some_ne_none e).symm
  | _ => rfl

theorem read_atError_of_ne_last {i : Instr} {s : State} {e : FatalError} {a : Nat} (he : execError i s = some e)
    (ha : a ≠ 4095) : Memory.read (s.atError i).mem a = Memory.read s.mem a := by
  by_cases hi : i = .jns 4095
  · subst hi
    exact read_jnsMemory_other ha
  · rw [atError_of_ne_jns_last he hi]

/-- Settles O43: beside the fetch's writes, only the store of JNS 4095 comes before an error. -/
theorem failingStepKeepsEarlierWrites : Obligations.FailingStepKeepsEarlierWrites := by
  intro s t h hfails
  cases (step_answer h).2 with
  | executes i t _ _ he _ => exact absurd he hfails
  | fetchFails hpc =>
    exact ⟨rfl, rfl, rfl, rfl, rfl, rfl, by simp [hpc], fun _ _ => rfl, fun _ => rfl, fun hne => absurd hpc hne⟩
  | raises i e hpc hi he =>
    have hexec : execError i s.fetched = some e := hi ▸ (stepError_of_ne_last hpc).symm.trans he
    have hir : decode ((s.fetched.atError i).raised e).ir = i := by simpa using hi
    rw [hir]
    refine ⟨by simp, by simp, by simp, by simp, by simp [State.fetchWord], by simp, by rw [if_neg hpc]; simp,
      fun a => read_atError_of_ne_last hexec, fun hother => ?other, fun _ hjns hwf => ?jnsLast⟩
    case other =>
      rw [State.raised_mem, atError_of_ne_jns_last hexec (hother.resolve_left hpc)]
      rfl
    case jnsLast =>
      subst hjns
      exact (toNat_read_jnsMemory_same (x := 4095) (s := s.fetched) hwf).trans (addr_toNat_succ hpc)

/-! ## Self-modifying code -/

/-- A step that stores AC at the next address is followed by the step that executes AC. -/
theorem step_after_store {s t : State} (hrun : s.runState = .running) (hwf : Memory.wf s.mem = true)
    (hnext : s.pc + 1 ≠ 4095)
    (ht : t = { s.fetched with mem := Memory.write s.mem (s.pc + 1).toNat s.ac }) :
    t.pc = s.pc + 1 ∧ step t = exec (decode s.ac) t.fetched := by
  have hpc : t.pc = s.pc + 1 := by rw [ht]; rfl
  have hword : t.fetchWord = s.ac := by
    rw [ht]
    exact Memory.read_write_same hwf
  refine ⟨hpc, ?_⟩
  rw [step_of_ne_last (by rw [ht]; exact hrun) (hpc ▸ hnext), hword]

/-- Settles O44: STORE and STOREI both leave AC at the address PC then points at. -/
theorem storedWordIsExecutedNext : Obligations.StoredWordIsExecutedNext := by
  intro s hrun hwf hpc hnext hinstr
  rcases hinstr with hstore | ⟨x, hstorei, hpointer⟩
  · refine ⟨_, ?_, step_after_store hrun hwf hnext rfl⟩
    rw [step_of_ne_last hrun hpc, State.fetchWord, hstore, exec_store]
    rfl
  · have haddr : indirectAddr s.fetched x = (s.pc + 1).toNat := hpointer.trans (addr_toNat_succ hpc).symm
    refine ⟨_, ?_, step_after_store hrun hwf hnext rfl⟩
    rw [step_of_ne_last hrun hpc, State.fetchWord, hstorei,
      exec_storei_of_pointer (haddr ▸ Nat.le_of_lt_succ (s.pc + 1).isLt), haddr]
    rfl

end Sys2Proof.Machine
end

section
/-! PROOFS. The invariant (spec/10_state.md sections 4 and 8): it holds after construction, and every step and every host
command keep it. -/

namespace Sys2Proof.Machine

/-! ## Construction -/

/-- Settles O1: the fields of `State.reset`. -/
theorem constructionLeavesIdleZeroState : Obligations.ConstructionLeavesIdleZeroState := by
  have hreg : ∀ r, State.reset.reg r = 0 := by
    intro r
    cases r
    all_goals rfl
  exact ⟨rfl, rfl, rfl, hreg, fun _ => rfl, rfl, rfl, rfl, rfl⟩

/-! ## The invariant of each kind of state -/

/-- Outside Halted the cause and the record are empty, and only Paused asks for more. -/
theorem inv_of_not_halted {s : State} (hwf : Memory.wf s.mem = true) (hcause : s.haltCause = .none)
    (herr : s.err = none) (hmbr : s.mbr = s.ir) (hrun : s.runState ≠ .halted)
    (hpaused : s.runState = .paused → s.pc = s.mar ∧ s.pc ≠ 4095 ∧ s.ir = s.fetchWord ∧ opcodeOf s.ir = 5) : s.Inv :=
  ⟨hwf, by simp [hcause, hrun], by simp [herr, hcause], hmbr, hpaused⟩

theorem inv_raised {s : State} (e : FatalError) (hwf : Memory.wf s.mem = true) (hmbr : s.mbr = s.ir) :
    (s.raised e).Inv :=
  ⟨hwf, by simp, by simp, hmbr, by simp⟩

/-- A halt without an error: the cause is not Fatal and no record is held. -/
theorem inv_of_halted {s : State} (hwf : Memory.wf s.mem = true) (hrun : s.runState = .halted)
    (hcause : s.haltCause = .haltInstr ∨ s.haltCause = .stopped) (herr : s.err = none) (hmbr : s.mbr = s.ir) : s.Inv := by
  refine ⟨hwf, ?_, ?_, hmbr, by simp [hrun]⟩
  · rcases hcause with hcause | hcause
    all_goals simp [hcause, hrun]
  · rcases hcause with hcause | hcause
    all_goals simp [hcause, herr]

/-- Outside Halted an invariant state has neither cause nor record. -/
theorem State.Inv.clear_of_not_halted {s : State} (h : s.Inv) (hrun : s.runState ≠ .halted) :
    s.haltCause = .none ∧ s.err = none := by
  have hcause : s.haltCause = .none := h.haltCause_none.mpr hrun
  have hfatal : ¬ s.err.isSome := fun hsome => by simpa [hcause] using h.err_held.mp hsome
  exact ⟨hcause, by simpa using hfatal⟩

/-- Settles O2: Idle is not Halted. -/
theorem constructionMeetsInvariant : Obligations.ConstructionMeetsInvariant :=
  inv_of_not_halted rfl rfl rfl rfl (by decide) (fun hpaused => RunState.noConfusion hpaused)

/-! ## The step -/

theorem opcodeOf_of_kind (w : Word) :
    (kindOf (decode w) = .input → opcodeOf w = 5) ∧ (kindOf (decode w) = .output → opcodeOf w = 6) := by
  rw [← opcodeFor_decode]
  cases decode w
  all_goals simp [kindOf, opcodeFor]

/-- An effect of the fetched word keeps the invariant; only `pauses` ends in Paused, and takes PC back to the INPUT. -/
theorem inv_of_effect {s t : State} {i : Instr} (h : s.Inv) (hrun : s.runState = .running) (hpc : s.pc ≠ 4095)
    (hi : decode s.fetchWord = i) (heff : Effect i s.fetched t) : t.Inv := by
  obtain ⟨hcause, herr⟩ := h.clear_of_not_halted (by simp [hrun])
  have hwf : Memory.wf t.mem = true := heff.wf h.memory_wf
  have hback : s.pc + 1 - 1 = s.pc := BitVec.add_sub_cancel s.pc 1
  cases heff with
  | setsAc | stores | transfers | takes =>
    exact inv_of_not_halted hwf hcause herr rfl (by simp [hrun]) (by simp [hrun])
  | outputs => exact inv_of_not_halted hwf hcause herr rfl (by simp [hrun]) (by simp [hrun])
  | halts => exact inv_of_halted hwf rfl (.inl rfl) herr rfl
  | pauses hk =>
    have hop : opcodeOf s.fetchWord = 5 := (opcodeOf_of_kind _).1 (hi ▸ hk)
    refine inv_of_not_halted hwf hcause herr rfl (by simp) fun _ => ⟨hback, ?_, ?_, hop⟩
    · exact fun hlast => hpc (hback.symm.trans hlast)
    · exact congrArg (fun a : Addr => Memory.read s.mem a.toNat) hback.symm

/-- Settles O3: a raise halts with its record, and every effect keeps the invariant. -/
theorem stepKeepsInvariant : Obligations.StepKeepsInvariant := by
  intro s t h hstep
  obtain ⟨hrun, hanswer⟩ := step_answer hstep
  cases hanswer with
  | fetchFails hpc => exact inv_raised _ h.memory_wf rfl
  | raises i e hpc hi he => exact inv_raised e (wf_atError h.memory_wf) (by simp)
  | executes i t hpc hi he heff => exact inv_of_effect h hrun hpc hi heff

/-! ## The host commands -/

theorem inv_settle {s : State} {r : Result} {reply : State → Reply} (h : s.Inv) (hnext : ∀ t, r = .next t → t.Inv) :
    (settle s r reply).1.Inv := by
  cases r with
  | next t => exact hnext t rfl
  | fault | refused => exact h

theorem inv_loaded {cfg : Config} {image : List Word} (s : State) (h : image.length ≤ memSize) :
    (s.loaded cfg image).Inv :=
  inv_of_not_halted (Memory.wf_image h) rfl rfl rfl (by simp) (by simp)

theorem inv_with_inQ {s : State} (h : s.Inv) (q : List Word) : ({ s with inQ := q } : State).Inv :=
  ⟨h.memory_wf, h.haltCause_none, h.err_held, h.mbr_eq_ir, h.paused_at_input⟩

theorem inv_resume {s : State} (h : s.Inv) : (resume s).Inv := by
  by_cases hp : s.runState = .paused
  · obtain ⟨hcause, herr⟩ := h.clear_of_not_halted (by simp [hp])
    rw [resume_of_paused hp]
    exact inv_of_not_halted h.memory_wf hcause herr h.mbr_eq_ir (by simp) (by simp)
  · rwa [resume_of_not_paused hp]

theorem inv_stop {s : State} (h : s.Inv) : (stop s).Inv := by
  by_cases hh : s.runState = .halted
  · rwa [stop_of_halted hh]
  · rw [stop_of_not_halted hh]
    exact inv_of_halted h.memory_wf rfl (.inr rfl) (h.clear_of_not_halted hh).2 h.mbr_eq_ir

/-- Settles O4: each command's operation keeps the invariant, and a refusal changes nothing. -/
theorem hostCommandsKeepInvariant : Obligations.HostCommandsKeepInvariant := by
  intro cfg c s h
  cases c with
  | load image =>
    refine inv_settle h fun t ht => ?_
    obtain ⟨hlen, -, rfl⟩ := load_next ht
    exact inv_loaded s (by simpa [toWords] using hlen)
  | step => exact inv_settle h fun t ht => stepKeepsInvariant s t h ht
  | setInput values =>
    refine inv_settle h fun t ht => ?_
    obtain ⟨-, rfl⟩ := setInput_next ht
    exact inv_with_inQ h _
  | resume => exact inv_resume h
  | stop => exact inv_stop h
  | inspect | getOutput => exact h

end Sys2Proof.Machine
end

section
/-! PROOFS. The host's commands (spec/40_engine.md R80 to R88), the input queue and the output log (spec/10_state.md
section 5), and the pause and its return (spec/60_exceptions.md R115). -/

namespace Sys2Proof.Machine

/-! ## Ranges, and the words of accepted values -/

theorem inWordRange_iff {v : Int} : inWordRange v = true ↔ 0 ≤ v ∧ v ≤ 65535 := by
  simp [inWordRange]

theorem all_inWordRange_iff {vs : List Int} : vs.all inWordRange = true ↔ ∀ v ∈ vs, 0 ≤ v ∧ v ≤ 65535 := by
  simp only [List.all_eq_true, inWordRange_iff]

theorem not_all_inWordRange {vs : List Int} (h : ∃ v ∈ vs, v < 0 ∨ 65535 < v) : ¬ vs.all inWordRange = true := by
  obtain ⟨v, hv, hout⟩ := h
  intro hall
  have := all_inWordRange_iff.mp hall v hv
  omega

/-- The words of accepted values stand for the values. -/
theorem map_toNat_toWords {vs : List Int} (h : vs.all inWordRange = true) :
    (toWords vs).map (fun w => (w.toNat : Int)) = vs := by
  have hid : ∀ v ∈ vs, ((fun w : Word => (w.toNat : Int)) ∘ BitVec.ofInt 16) v = id v :=
    fun v hv => toNat_ofInt_of_inWordRange (List.all_eq_true.mp h v hv)
  rw [toWords, List.map_map, List.map_congr_left hid, List.map_id]

theorem setInput_of_accepted {values : List Int} {s : State} (h : values.all inWordRange = true) :
    setInput values s = .next { s with inQ := s.inQ ++ toWords values } := if_pos h

theorem setInput_of_not_accepted {values : List Int} {s : State} (h : ¬ values.all inWordRange = true) :
    setInput values s = .refused .inputValueOutOfRange := if_neg h

/-! ## The load command -/

/-- Settles O52: an accepted load leaves `State.loaded`, whose memory is the image. -/
theorem loadResetsEngine : Obligations.LoadResetsEngine := by
  intro cfg image s hlen hrange
  have hall : image.all inWordRange = true := all_inWordRange_iff.mpr hrange
  have hcell : ∀ a, ((Memory.read (Memory.image 0 (toWords image)) a).toNat : Int) = image.getD a 0 := by
    intro a
    have hwords : (toWords image).length ≤ memSize := by simpa [toWords] using hlen
    calc ((Memory.read (Memory.image 0 (toWords image)) a).toNat : Int)
        = (((toWords image).getD a unlistedCell).toNat : Int) := by rw [Memory.read_image hwords]
      _ = ((toWords image).map fun w => (w.toNat : Int)).getD a 0 := 
          (List.getD_map _ unlistedCell fun w : Word => (w.toNat : Int)).symm
      _ = image.getD a 0 := by rw [map_toNat_toWords hall]
  have hreg : ∀ r, (s.loaded cfg (toWords image)).reg r = 0 := by
    intro r
    cases r
    all_goals rfl
  refine ⟨_, load_of_accepted hlen hall, hcell, hreg, rfl, rfl, rfl, rfl, rfl, fun hkeep => ?_, fun hclear => ?_⟩
  · rw [State.loaded_inQ, queueAfterLoad, hkeep]
  · rw [State.loaded_inQ, queueAfterLoad, hclear]

theorem load_of_bad_image {cfg : Config} {image : List Int} {s : State}
    (h : 4096 < image.length ∨ ∃ v ∈ image, v < 0 ∨ 65535 < v) : ∃ why, load cfg image s = .refused why := by
  by_cases hlen : memSize < image.length
  · exact ⟨_, if_pos hlen⟩
  · exact ⟨_, (if_neg hlen).trans (if_neg (not_all_inWordRange (h.resolve_left hlen)))⟩

/-- Settles O53: either bound refuses, and a refusal leaves the state. -/
theorem loadRefusesBadImage : Obligations.LoadRefusesBadImage := by
  intro cfg image s hbad
  obtain ⟨why, hwhy⟩ := load_of_bad_image (cfg := cfg) (s := s) hbad
  exact ⟨why, hwhy, by rw [perform, hwhy, settle]⟩

/-! ## Set input, resume, stop, inspect -/

/-- Settles O54: the range test of the whole batch decides. -/
theorem setInputAppendsWholeBatchOrNothing : Obligations.SetInputAppendsWholeBatchOrNothing := by
  refine fun cfg values s => ⟨fun hin => ?appends, fun hout => ?refuses⟩
  case appends =>
    have hall : values.all inWordRange = true := all_inWordRange_iff.mpr hin
    exact ⟨_, setInput_of_accepted hall, ⟨toWords values, rfl, map_toNat_toWords hall⟩, rfl⟩
  case refuses => rw [perform, setInput_of_not_accepted (not_all_inWordRange hout), settle]

/-- Settles O55: the two tests of the run state. -/
theorem resumeAndStopFollowTransitionTable : Obligations.ResumeAndStopFollowTransitionTable := by
  refine fun s => ⟨resume_of_paused, resume_of_not_paused, fun hrun => ⟨stop_of_not_halted hrun, ?_⟩, stop_of_halted⟩
  rw [stop_of_not_halted hrun, State.outcome]

/-- Every command but load answers a halted engine with the same state, but for queued values. -/
theorem perform_of_halted {cfg : Config} {c : Command} {s : State} (hh : s.runState = .halted)
    (hload : ∀ image, c ≠ .load image) (hset : ∀ values, c ≠ .setInput values) : (perform cfg c s).1 = s := by
  cases c with
  | load image => exact absurd rfl (hload image)
  | setInput values => exact absurd rfl (hset values)
  | step => rw [perform, step_of_not_running (by simp [hh]), settle]
  | resume => exact resume_of_not_paused (by simp [hh])
  | stop => exact stop_of_halted hh
  | inspect | getOutput => rfl

theorem perform_setInput_eq (cfg : Config) (values : List Int) (s : State) :
    (perform cfg (.setInput values) s).1 = { s with inQ := (perform cfg (.setInput values) s).1.inQ } := by
  by_cases hall : values.all inWordRange = true
  · rw [perform, setInput_of_accepted hall, settle]
  · rw [perform, setInput_of_not_accepted hall, settle]

/-- Settles O56: set input changes the queue alone, and the other commands have no effect in Halted. -/
theorem haltedIsLeftOnlyByLoad : Obligations.HaltedIsLeftOnlyByLoad := by
  refine fun cfg c s hh hload => ⟨?_, perform_of_halted hh hload⟩
  by_cases hset : ∃ values, c = .setInput values
  · obtain ⟨values, rfl⟩ := hset
    exact perform_setInput_eq cfg values s
  · rw [perform_of_halted hh hload fun values hc => hset ⟨values, hc⟩]

/-- Settles O57: the snapshot is `inspect s`, whose memory lists every address in order. -/
theorem inspectionReturnsSnapshotUnchanged : Obligations.InspectionReturnsSnapshotUnchanged := by
  intro cfg s
  have hlength : (inspect s).memory.length = 4096 := by
    rw [inspect, List.length_map, List.length_range]
  have hcell : ∀ a, a ≤ 4095 → (inspect s).memory[a]? = some (Memory.read s.mem a) := by
    intro a ha
    rw [inspect, List.getElem?_map, List.getElem?_range (Nat.lt_succ_of_le ha), Option.map_some]
  exact ⟨inspect s, rfl, rfl, rfl, rfl, rfl, rfl, rfl, rfl, decide_eq_true_iff, hlength, hcell⟩

/-! ## The input queue and the output log -/

theorem step_inQ {s t : State} (h : step s = .next t) :
    t.inQ = s.inQ ∨ (opcodeOf t.ir = 5 ∧ s.inQ = t.ac :: t.inQ) := by
  cases (step_answer h).2 with
  | fetchFails => exact .inl rfl
  | raises => exact .inl (by simp)
  | executes i t hpc hi he heff =>
    cases heff with
    | takes v rest hk hq => exact .inr ⟨(opcodeOf_of_kind _).1 (hi ▸ hk), hq⟩
    | setsAc | stores | transfers | pauses | outputs | halts => exact .inl rfl

theorem step_outLog {s t : State} (h : step s = .next t) :
    t.outLog = s.outLog ∨ (opcodeOf t.ir = 6 ∧ t.outLog = s.outLog ++ [s.ac]) := by
  cases (step_answer h).2 with
  | fetchFails => exact .inl rfl
  | raises => exact .inl (by simp)
  | executes i t hpc hi he heff =>
    cases heff with
    | outputs hk => exact .inr ⟨(opcodeOf_of_kind _).2 (hi ▸ hk), rfl⟩
    | setsAc | stores | transfers | takes | pauses | halts => exact .inl rfl

theorem resume_streams (s : State) : (resume s).inQ = s.inQ ∧ (resume s).outLog = s.outLog := by
  by_cases hp : s.runState = .paused
  · rw [resume_of_paused hp]
    exact ⟨rfl, rfl⟩
  · rw [resume_of_not_paused hp]
    exact ⟨rfl, rfl⟩

theorem stop_streams (s : State) : (stop s).inQ = s.inQ ∧ (stop s).outLog = s.outLog := by
  by_cases hh : s.runState = .halted
  · rw [stop_of_halted hh]
    exact ⟨rfl, rfl⟩
  · rw [stop_of_not_halted hh]
    exact ⟨rfl, rfl⟩

/-- Settles O50: INPUT takes the head, set input appends at the tail, and no other command but load touches the queue. -/
theorem inputQueueIsFirstInFirstOut : Obligations.InputQueueIsFirstInFirstOut := by
  refine ⟨fun s t => step_inQ, fun s t values h => ?appends, fun cfg c s hc => ?keeps⟩
  case appends =>
    obtain ⟨hall, rfl⟩ := setInput_next h
    exact ⟨toWords values, rfl, map_toNat_toWords hall⟩
  case keeps =>
    rcases hc with rfl | rfl | rfl | rfl
    exacts [(resume_streams s).1, (stop_streams s).1, rfl, rfl]

/-- Settles O51: OUTPUT appends AC, load empties the log, and no other command touches it. -/
theorem outputLogOnlyGrowsByOutput : Obligations.OutputLogOnlyGrowsByOutput := by
  refine ⟨fun s t => step_outLog, fun cfg s t image h => ?empties, fun cfg c s hstep hload => ?keeps⟩
  case empties =>
    obtain ⟨-, -, rfl⟩ := load_next h
    rfl
  case keeps =>
    cases c with
    | load image => exact absurd rfl (hload image)
    | step => exact absurd rfl hstep
    | setInput values => rw [perform_setInput_eq]
    | resume => exact (resume_streams s).2
    | stop => exact (stop_streams s).2
    | inspect | getOutput => rfl

/-! ## The pause and its return -/

/-- The engine that set input and resume make of a paused one. -/
def State.resumedWith (s : State) (values : List Int) : State :=
  { s with inQ := s.inQ ++ toWords values, runState := .running }

theorem performAll_setInput_resume {cfg : Config} {s : State} {values : List Int} (hp : s.runState = .paused)
    (hall : values.all inWordRange = true) : performAll cfg [.setInput values, .resume] s = s.resumedWith values := by
  have hset : (perform cfg (.setInput values) s).1 = { s with inQ := s.inQ ++ toWords values } := by
    rw [perform, setInput_of_accepted hall, settle]
  calc performAll cfg [.setInput values, .resume] s = resume (perform cfg (.setInput values) s).1 := rfl
    _ = resume { s with inQ := s.inQ ++ toWords values } := by rw [hset]
    _ = s.resumedWith values := resume_of_paused hp

/-- Settles O58: a paused engine points at its INPUT, which then finds the queue filled. -/
theorem pausedInputCompletesAfterResume : Obligations.PausedInputCompletesAfterResume := by
  intro cfg s v rest hinv hp hrange
  have hall : (v :: rest).all inWordRange = true := all_inWordRange_iff.mpr hrange
  obtain ⟨-, hpc, hir, hop⟩ := hinv.paused_at_input hp
  have hword : decode (s.resumedWith (v :: rest)).fetchWord = .input (operandOf s.fetchWord) :=
    decode_of_opcodeOf (hir ▸ hop)
  obtain ⟨u, q, hq⟩ : ∃ u q, s.inQ ++ toWords (v :: rest) = u :: q :=
    List.exists_cons_of_ne_nil (by simp [toWords])
  refine ⟨{ (s.resumedWith (v :: rest)).fetched with ac := u, inQ := q }, ?_, ?_, addr_toNat_succ hpc, rfl, rfl, rfl, rfl⟩
  · rw [performAll_setInput_resume hp hall, step_of_ne_last (s := s.resumedWith (v :: rest)) rfl hpc, hword,
      exec_input_of_queued (s := (s.resumedWith (v :: rest)).fetched) hq]
  · calc (u :: q).map (fun w => (w.toNat : Int))
        = (s.inQ ++ toWords (v :: rest)).map fun w => (w.toNat : Int) := by rw [hq]
      _ = s.inQ.map (fun w => (w.toNat : Int)) ++ v :: rest := by rw [List.map_append, map_toNat_toWords hall]

end Sys2Proof.Machine
end

section
/-! PROOFS. The assembler (spec/30_encoding.md R60 to R70): what pass 1 binds, how many words pass 2 makes, that the load
command accepts them, and that the word of an instruction line is a well-formed instruction. -/

namespace Sys2Proof.Assembler

open Sys2Proof.Machine

/-! ## Lookup -/

theorem mem_of_lookup {table : SymbolTable} {name : Text} {a : Nat} (h : lookup table name = some a) :
    ∃ e ∈ table, e.2 = a := by
  obtain ⟨e, hfind, rfl⟩ := Option.map_eq_some_iff.mp h
  exact ⟨e, List.mem_of_find?_eq_some hfind, rfl⟩

theorem notMem_of_lookup_none {table : SymbolTable} {name : Text} (h : lookup table name = none) :
    name ∉ table.map (·.1) := by
  intro hmem
  obtain ⟨e, he, rfl⟩ := List.mem_map.mp hmem
  exact List.find?_eq_none.mp (Option.map_eq_none_iff.mp h) e he (beq_self_eq_true e.1)

/-! ## Pass 1 -/

/-- What pass 1 keeps of its table, `a` being the address of the next word: no label twice, each at an earlier word. -/
def WellBound (table : SymbolTable) (a : Nat) : Prop := (table.map (·.1)).Nodup ∧ ∀ e ∈ table, e.2 < a

theorem wellBound_nil (a : Nat) : WellBound [] a := ⟨List.nodup_nil, fun _ he => absurd he List.not_mem_nil⟩

theorem WellBound.succ {table : SymbolTable} {a : Nat} (h : WellBound table a) : WellBound table (a + 1) :=
  ⟨h.1, fun e he => Nat.lt_succ_of_lt (h.2 e he)⟩

theorem WellBound.bind {table : SymbolTable} {a : Nat} {name : Text} (h : WellBound table a)
    (hnew : lookup table name = none) : WellBound (table ++ [(name, a)]) (a + 1) := by
  obtain ⟨hnodup, hlt⟩ := h.succ
  constructor
  · rw [List.map_append]
    exact hnodup.append (List.nodup_singleton name) (List.disjoint_singleton.mpr (notMem_of_lookup_none hnew))
  · intro e he
    rcases List.mem_append.mp he with he | he
    · exact hlt e he
    · rw [List.mem_singleton.mp he]
      exact Nat.lt_succ_self a

/-- Pass 1 on a line that is accepted: the address is in range and the label, if any, is new. -/
theorem pass1_cons {table bound : SymbolTable} {a : Nat} {l : SourceLine} {ls : List SourceLine}
    (h : pass1 table a (l :: ls) = .ok bound) :
    a < memSize ∧ (pass1 table (a + 1) ls = .ok bound ∨
      ∃ name, lookup table name = none ∧ pass1 (table ++ [(name, a)]) (a + 1) ls = .ok bound) := by
  rw [pass1] at h
  split at h
  case isTrue => cases h
  case isFalse hlt =>
    refine ⟨Nat.not_le.mp hlt, ?_⟩
    split at h
    case h_1 => exact .inl h
    case h_2 name _ =>
      split at h
      case isTrue => cases h
      case isFalse =>
        split at h
        case isTrue => cases h
        case isFalse hnew => exact .inr ⟨name, by simpa using hnew, h⟩

theorem wellBound_of_pass1 {ls : List SourceLine} {table bound : SymbolTable} {a : Nat} (hb : WellBound table a)
    (h : pass1 table a ls = .ok bound) : WellBound bound (a + ls.length) := by
  induction ls generalizing table a with
  | nil =>
    cases h
    exact hb
  | cons l ls ih =>
    rw [List.length_cons, Nat.add_comm ls.length, ← Nat.add_assoc]
    obtain ⟨-, hrest | ⟨name, hnew, hrest⟩⟩ := pass1_cons h
    · exact ih hb.succ hrest
    · exact ih (hb.bind hnew) hrest

/-- R70: the lines fit memory. -/
theorem length_le_of_pass1 {ls : List SourceLine} {table bound : SymbolTable} {a : Nat} (ha : a ≤ memSize)
    (h : pass1 table a ls = .ok bound) : a + ls.length ≤ memSize := by
  induction ls generalizing table a with
  | nil => exact ha
  | cons l ls ih =>
    rw [List.length_cons, Nat.add_comm ls.length, ← Nat.add_assoc]
    obtain ⟨hlt, hrest | ⟨name, -, hrest⟩⟩ := pass1_cons h
    · exact ih hlt hrest
    · exact ih hlt hrest

/-! ## Pass 2 and the image -/

/-- Pass 2 makes one word of each line. -/
theorem length_of_pass2 {radix : AddrLiteralRadix} {table : SymbolTable} {ls : List SourceLine} {ws : List Word}
    (h : pass2 radix table ls = .ok ws) : ws.length = ls.length := by
  induction ls generalizing ws with
  | nil =>
    cases h
    rfl
  | cons l ls ih =>
    rw [pass2] at h
    split at h
    case h_1 => cases h
    case h_2 =>
      split at h
      case h_1 => cases h
      case h_2 hrest =>
        cases h
        simp [ih hrest]

theorem assemble_ok {cfg : Config} {source : Text} {words : List Word} {table : SymbolTable}
    (h : assemble cfg source = .ok (words, table)) :
    pass1 [] 0 (sourceLines source) = .ok table ∧
      pass2 cfg.addrLiteralRadix table (sourceLines source) = .ok words := by
  rw [assemble] at h
  split at h
  case h_1 => cases h
  case h_2 hpass1 =>
    split at h
    case h_1 => cases h
    case h_2 hpass2 =>
      cases h
      exact ⟨hpass1, hpass2⟩

theorem imageOf_inWordRange (words : List Word) : (imageOf words).all inWordRange = true := by
  refine all_inWordRange_iff.mpr fun v hv => ?_
  obtain ⟨w, -, rfl⟩ := List.mem_map.mp hv
  have := w.isLt
  omega

/-- Settles O59: pass 1 bounds the lines and binds each label once, and pass 2 makes as many words as there are lines. -/
theorem assembledProgramLoads : Obligations.AssembledProgramLoads := by
  intro cfg source words table s h
  obtain ⟨hpass1, hpass2⟩ := assemble_ok h
  have hlength : words.length = (sourceLines source).length := length_of_pass2 hpass2
  have hfits : words.length ≤ memSize := by simpa [hlength] using length_le_of_pass1 (Nat.zero_le _) hpass1
  obtain ⟨hnodup, hbound⟩ := wellBound_of_pass1 (wellBound_nil 0) hpass1
  rw [Nat.zero_add, ← hlength] at hbound
  exact ⟨hfits, ⟨_, load_of_accepted (by simpa [imageOf] using hfits) (imageOf_inWordRange words)⟩, hnodup, hbound⟩

/-! ## Operand values -/

/-- The operand values the checks of R65 let through. -/
def OperandKind.Allows (v : Nat) : OperandKind → Prop
  | .none => v = 0
  | .address => v ≤ 4095
  | .condition => v = 0 ∨ v = 1024 ∨ v = 2048
  | .decimal | .hexadecimal => v ≤ 65535

theorem le_of_bounded {bound v : Nat} {p : Problem} {n : Option Int} (h : bounded bound p n = .ok v) : v ≤ bound := by
  unfold bounded at h
  split at h
  case h_2 => cases h
  case h_1 =>
    split at h
    case isFalse => cases h
    case isTrue hn =>
      cases h
      exact Int.toNat_le.mpr hn.2

theorem allows_of_checkedCondition {n : Int} {v : Nat} (h : checkedCondition n = .ok v) :
    OperandKind.condition.Allows v := by
  rw [checkedCondition] at h
  split at h
  case isFalse => cases h
  case isTrue hn =>
    cases h
    rcases hn with rfl | rfl | rfl
    exacts [.inl rfl, .inr (.inl rfl), .inr (.inr rfl)]

/-- A symbol's value, `a`, stands for itself, but SKIPCOND checks it (R65 step 3). -/
theorem allows_of_resolve_symbol {radix : AddrLiteralRadix} {table : SymbolTable} {kind : OperandKind} {token : Text}
    {a v : Nat} (hkind : kind ≠ .none) (hsymbol : lookup table token = some a) (ha : a ≤ 4095)
    (h : resolve radix table kind token = .ok v) : kind.Allows v := by
  cases kind with
  | none => exact absurd rfl hkind
  | condition =>
    simp only [resolve, hsymbol] at h
    exact allows_of_checkedCondition h
  | address =>
    simp only [resolve, hsymbol] at h
    cases h
    exact ha
  | decimal | hexadecimal =>
    simp only [resolve, hsymbol] at h
    cases h
    exact ha.trans (by decide)

theorem allows_of_resolve_literal {radix : AddrLiteralRadix} {table : SymbolTable} {kind : OperandKind} {token : Text}
    {v : Nat} (hliteral : lookup table token = none) (h : resolve radix table kind token = .ok v) : kind.Allows v := by
  cases kind with
  | none =>
    simp only [resolve, hliteral] at h
    cases h
  | condition =>
    simp only [resolve, hliteral] at h
    split at h
    case h_1 => exact allows_of_checkedCondition h
    case h_2 => cases h
  | address | decimal | hexadecimal =>
    simp only [resolve, hliteral] at h
    exact le_of_bounded h

/-- An operand value is 0 for a mnemonic without operand, and otherwise that of its one token. -/
theorem operandValue_ok {radix : AddrLiteralRadix} {table : SymbolTable} {kind : OperandKind} {operands : List Text}
    {v : Nat} (h : operandValue radix table kind operands = .ok v) :
    (kind = .none ∧ v = 0) ∨ (kind ≠ .none ∧ ∃ token, resolve radix table kind token = .ok v) := by
  unfold operandValue at h
  split at h
  case h_1 =>
    cases h
    exact .inl ⟨rfl, rfl⟩
  case h_4 token hkind => exact .inr ⟨hkind, token, h⟩
  all_goals cases h

theorem allows_of_operandValue {radix : AddrLiteralRadix} {table : SymbolTable} {kind : OperandKind}
    {operands : List Text} {v : Nat} (htable : ∀ e ∈ table, e.2 ≤ 4095)
    (h : operandValue radix table kind operands = .ok v) : kind.Allows v := by
  obtain ⟨rfl, rfl⟩ | ⟨hkind, token, hres⟩ := operandValue_ok h
  · rfl
  · cases hlookup : lookup table token with
    | none => exact allows_of_resolve_literal hlookup hres
    | some a =>
      obtain ⟨e, he, rfl⟩ := mem_of_lookup hlookup
      exact allows_of_resolve_symbol hkind hlookup (htable e he) hres

/-! ## The word of a line -/

theorem assembleLine_ok {radix : AddrLiteralRadix} {table : SymbolTable} {line mnemonic : Text} {operands : List Text}
    {row : MnemonicRow} {w : Word} (htokens : withoutLabel table (tokens line) = mnemonic :: operands)
    (hrow : findMnemonic mnemonic = some row) (h : assembleLine radix table line = .ok w) :
    ∃ v, operandValue radix table row.operand operands = .ok v ∧ w = BitVec.ofNat 16 (row.opcode * 4096 + v) := by
  simp only [assembleLine, htokens, hrow] at h
  split at h
  case h_1 v hv =>
    cases h
    exact ⟨v, hv, rfl⟩
  case h_2 => cases h

/-- The word of an opcode and an operand value decodes by them. -/
theorem decode_ofNat {op v : Nat} (hop : op < 16) (hv : v ≤ 4095) :
    decode (BitVec.ofNat 16 (op * 4096 + v)) = instrOf op (BitVec.ofNat 12 v) := by
  have hword : (BitVec.ofNat 16 (op * 4096 + v)).toNat = op * 4096 + v := by
    rw [BitVec.toNat_ofNat]
    omega
  have hopcode : (opcodeOf (BitVec.ofNat 16 (op * 4096 + v))).toNat = op := by
    rw [toNat_opcodeOf, hword]
    omega
  have hoperand : operandOf (BitVec.ofNat 16 (op * 4096 + v)) = BitVec.ofNat 12 v := by
    apply BitVec.eq_of_toNat_eq
    rw [toNat_operandOf, hword, BitVec.toNat_ofNat]
    omega
  rw [decode, hopcode, hoperand]

/-! ## The mnemonics -/

theorem opcode_lt_of_row : ∀ row ∈ mnemonicTable, row.opcode < 16 := by decide

theorem opcode_of_data_row :
    ∀ row ∈ mnemonicTable, row.operand = .decimal ∨ row.operand = .hexadecimal → row.opcode = 0 := by decide

theorem wellFormed_of_no_operand :
    ∀ row ∈ mnemonicTable, row.operand = .none → (instrOf row.opcode 0).wellFormed = true := by decide

theorem wellFormed_of_condition : ∀ row ∈ mnemonicTable, row.operand = .condition →
    ∀ v ∈ [0, 1024, 2048], (instrOf row.opcode (BitVec.ofNat 12 v)).wellFormed = true := by decide

theorem opcode_of_address_row :
    ∀ row ∈ mnemonicTable, row.operand = .address → row.opcode ∈ [0, 1, 2, 3, 4, 9, 11, 12, 13, 14] := by decide

/-- Every operand of an address-taking operation is well-formed. -/
theorem wellFormed_of_address {op : Nat} (h : op ∈ [0, 1, 2, 3, 4, 9, 11, 12, 13, 14]) (x : Addr) :
    (instrOf op x).wellFormed = true := by
  simp only [List.mem_cons, List.not_mem_nil, or_false] at h
  rcases h with rfl | rfl | rfl | rfl | rfl | rfl | rfl | rfl | rfl | rfl
  all_goals rfl

/-- An instruction row with an operand value its checks let through is a well-formed instruction. -/
theorem wellFormed_of_row {row : MnemonicRow} {v : Nat} (hrow : row ∈ mnemonicTable) (hdec : row.operand ≠ .decimal)
    (hhex : row.operand ≠ .hexadecimal) (hv : row.operand.Allows v) :
    v ≤ 4095 ∧ (instrOf row.opcode (BitVec.ofNat 12 v)).wellFormed = true := by
  cases hkind : row.operand with
  | decimal => exact absurd hkind hdec
  | hexadecimal => exact absurd hkind hhex
  | none =>
    have hzero : v = 0 := by simpa [hkind, OperandKind.Allows] using hv
    subst hzero
    exact ⟨Nat.zero_le _, wellFormed_of_no_operand row hrow hkind⟩
  | address =>
    have hle : v ≤ 4095 := by simpa [hkind, OperandKind.Allows] using hv
    exact ⟨hle, wellFormed_of_address (opcode_of_address_row row hrow hkind) _⟩
  | condition =>
    have hcond : v = 0 ∨ v = 1024 ∨ v = 2048 := by simpa [hkind, OperandKind.Allows] using hv
    exact ⟨by omega, wellFormed_of_condition row hrow hkind v (by simpa using hcond)⟩

theorem toNat_of_data_row {row : MnemonicRow} {v : Nat} (hrow : row ∈ mnemonicTable)
    (hdata : row.operand = .decimal ∨ row.operand = .hexadecimal) (hv : row.operand.Allows v) :
    (BitVec.ofNat 16 (row.opcode * 4096 + v)).toNat = v := by
  have hle : v ≤ 65535 := by
    rcases hdata with hkind | hkind
    all_goals simpa [hkind, OperandKind.Allows] using hv
  rw [opcode_of_data_row row hrow hdata, Nat.zero_mul, Nat.zero_add, BitVec.toNat_ofNat]
  omega

/-- Settles O60: the checks leave an operand value that fits the fields execution reads. -/
theorem assembledInstructionIsWellFormed : Obligations.AssembledInstructionIsWellFormed := by
  intro radix table line mnemonic operands row w htable htokens hfind hline
  obtain ⟨v, hv, rfl⟩ := assembleLine_ok htokens hfind hline
  have hrow : row ∈ mnemonicTable := List.mem_of_find?_eq_some hfind
  have hallows : row.operand.Allows v := allows_of_operandValue htable hv
  refine ⟨v, hv, fun hdata => toNat_of_data_row hrow hdata hallows, fun hdec hhex => ?_⟩
  obtain ⟨hle, hwf⟩ := wellFormed_of_row hrow hdec hhex hallows
  have hop : row.opcode < 16 := opcode_lt_of_row row hrow
  refine ⟨decode_ofNat hop hle ▸ hwf, ?_, hle⟩
  rw [BitVec.toNat_ofNat]
  omega

end Sys2Proof.Assembler
end
